-- ==== Sys2Proof/Word.lean ====
section
/-! DEFINITION. The two word types of the engine: the byte (R5 BYTE_W) and the 32-bit register (R5 IDX_W, IND_W). -/

namespace Sys2Proof

/-- A byte of either memory: 8 bits, unsigned (R5, R6). -/
abbrev Byte := BitVec 8

/-- A 32-bit register or a memory index (R5 IDX_W, IND_W). -/
abbrev Word := BitVec 32

end Sys2Proof
end

