-- ==== Sys2Proof/Config.lean ====
section
/-! DEFINITION. What the spec fixes for every engine (R5) and the free values: values the spec leaves open, given
no body, so that no proof can rest on one (93_implementation_defined.md, treatment "any value"). -/

namespace Sys2Proof

/-- `BITPOS_INIT`: the value START gives `bit_pos` (R5, R27). -/
def Config.bitPosInit : BitVec 5 := 30

/-- `CTL_BITS`: the control bits used per indicator word; `bit_pos` reaching it forces a refill (R5, R74). -/
def Config.ctlBits : BitVec 5 := 31

/-- `IND_BYTES`: the input bytes of an indicator word (R5, R74). -/
def Config.indBytes : Nat := 4

/-- `MIN_MATCH`: the least match length, the length of the shapes `M1` and `M3` (R5, R94, R96). -/
def Config.minMatch : BitVec 9 := 3

/-- `MATCH_LOOKAHEAD`: the input bytes that must remain before any match token is decoded (R5, R90). -/
def Config.matchLookahead : Nat := 2

/-! Free values. Each is indexed by the number of hardware resets so far, so that two resets may leave
different values. -/

/-- FREE VALUE (R26, U3): the byte at an index of `IN` that the host has not stored since the last reset. -/
opaque Config.unwrittenIn : Nat → Nat → Byte

/-- FREE VALUE (R26, R44, U2, U3): the byte at an index of `OUT` that nothing has written since the last reset. -/
opaque Config.unwrittenOut : Nat → Nat → Byte

/-- FREE VALUE (R26, R145): `in_len` after a hardware reset. -/
opaque Config.resetInLen : Nat → Word

/-- FREE VALUE (R26, R145): `out_cap` after a hardware reset. -/
opaque Config.resetOutCap : Nat → Word

/-- FREE VALUE (R26, R145): `out_idx` after a hardware reset. -/
opaque Config.resetOutIdx : Nat → Word

/-- FREE VALUE (R26, R145): `in_idx` after a hardware reset. -/
opaque Config.resetInIdx : Nat → Word

/-- FREE VALUE (R26, R145): `bit_pos` after a hardware reset. -/
opaque Config.resetBitPos : Nat → BitVec 5

/-- FREE VALUE (R15, R26, U1): `ind` after a hardware reset. -/
opaque Config.resetInd : Nat → Word

/-- FREE VALUE (R16, R26, U4): `m_len` after a hardware reset. -/
opaque Config.resetMLen : Nat → BitVec 9

/-- FREE VALUE (R16, R26, U4): `m_off` after a hardware reset. -/
opaque Config.resetMOff : Nat → BitVec 21

/-- FREE VALUE (R16, R26, U4): `cnt` after a hardware reset. -/
opaque Config.resetCnt : Nat → BitVec 9

/-- FREE VALUE (R20, R44, U9): what a host read returns where the spec gives it no value, one fresh value for each
such read. -/
opaque Config.unspecifiedRead : Nat → Word

end Sys2Proof
end

