-- ==== Sys2Proof/Syntax.lean ====
section
/-! DEFINITION. The seven elements of the payload (R50), one constructor for each row of the opcode table, and the
three positions at which the engine takes an element (R59). -/

namespace Sys2Proof

/-- One element of the compressed payload (R50). A match token carries its length and its offset in the widths of
the latches they go to (R10, R99); which values a shape can express is `Instr.wellFormed`. -/
inductive Instr where
  /-- `IND`: the indicator word `w`, bit 31 included (R52). -/
  | ind (w : BitVec 32)
  /-- `LIT`: the literal byte `v` (R53). -/
  | lit (v : BitVec 8)
  /-- `M1`: a match of length 3 (R54). -/
  | m1 (off : BitVec 21)
  /-- `M2`: a match of length 3 to 18 (R55). -/
  | m2 (len : BitVec 9) (off : BitVec 21)
  /-- `M3`: a match of length 3 with a 14-bit offset (R56). -/
  | m3 (off : BitVec 21)
  /-- `M4`: a match of length 3 to 258; `x` is the ignored field, bits 2:0 of `b1` (R57, R62 b). -/
  | m4 (len : BitVec 9) (off : BitVec 21) (x : BitVec 3)
  /-- `M5`: a match of length 3 to 34 (R58). -/
  | m5 (len : BitVec 9) (off : BitVec 21)
  deriving DecidableEq, Repr

/-- What decides the kind of the next element beside its own bytes (R59): the indicator position, or the control
bit clear or set. -/
inductive Slot where
  /-- `bit_pos` has reached 31: the next four bytes are an indicator word (R59 step 1). -/
  | indicator
  /-- The control bit is 0: the next byte is a literal (R59 step 2). -/
  | literal
  /-- The control bit is 1: the next bytes are a match token (R59 step 3). -/
  | matchToken
  deriving DecidableEq, Repr

/-- The position at which an element stands in a payload (R50, column "selected by"). -/
def Instr.slot : Instr → Slot
  | .ind _ => .indicator
  | .lit _ => .literal
  | .m1 _ => .matchToken
  | .m2 _ _ => .matchToken
  | .m3 _ => .matchToken
  | .m4 _ _ _ => .matchToken
  | .m5 _ _ => .matchToken

end Sys2Proof
end

