-- ==== Sys2Proof/WellFormed.lean ====
section
/-! DEFINITION. Which instructions the encodings can express: the argument ranges of the encoding functions (R63), which are
the ranges of R60, and the tie between length and offset of the shape M4 (R62 c). -/

namespace Sys2Proof

/-- The argument ranges of R63. -/
def Instr.wellFormed : Instr → Bool
  | .ind _ => true
  | .lit _ => true
  | .m1 off => off.toNat ≤ 63
  | .m2 len off => 3 ≤ len.toNat && len.toNat ≤ 18 && off.toNat ≤ 1023
  | .m3 off => off.toNat ≤ 16383
  | .m4 len off _ => 3 ≤ len.toNat && len.toNat ≤ 258 && (len.toNat - 3) / 32 == off.toNat / 8192 % 8
  | .m5 len off => 3 ≤ len.toNat && len.toNat ≤ 34 && off.toNat ≤ 65535

end Sys2Proof
end

