-- ==== Sys2Proof/Decode.lean ====
section
/-! DEFINITION. From bytes to an element and back: the field formulas (R52 to R58, R60), the decoder (R59, R90 to R92), the encoder
(R63) and the reading of an opcode-table word. -/

namespace Sys2Proof

/-- Why the decoder gives no element: the bytes run out. No byte sequence is refused for its content (R61). -/
inductive Short where
  /-- Fewer than 4 bytes for an indicator word (R74). -/
  | refill
  /-- No byte for a literal (R85). -/
  | literal
  /-- Fewer than 2 bytes, or fewer than the shape's size, for a match token (R90, R92). -/
  | token
  deriving DecidableEq, Repr

/-- What the decoder answers. -/
inductive Decoded where
  | element (i : Instr)
  | short (why : Short)
  deriving DecidableEq, Repr

/-! The field formulas, each in the width of the latch it goes to, so that no shift loses a bit (R7, R99). -/

/-- The little-endian indicator word (R31, R52). -/
def indWord (w0 w1 w2 w3 : Byte) : Word :=
  w0.setWidth 32 ||| (w1.setWidth 32 <<< 8) ||| (w2.setWidth 32 <<< 16) ||| (w3.setWidth 32 <<< 24)

/-- `M1`: offset `b0 >> 2` (R94). -/
def m1Off (b0 : Byte) : BitVec 21 := b0.setWidth 21 >>> 2

/-- `M2`: length `((b0 >> 2) & 0xF) + 3` (R95). -/
def m2Len (b0 : Byte) : BitVec 9 := ((b0.setWidth 9 >>> 2) &&& 0xF) + 3

/-- `M2`: offset `(b1 << 2) | (b0 >> 6)` (R95). -/
def m2Off (b0 b1 : Byte) : BitVec 21 := (b1.setWidth 21 <<< 2) ||| (b0.setWidth 21 >>> 6)

/-- `M3`: offset `(b1 << 6) | (b0 >> 2)` (R96). -/
def m3Off (b0 b1 : Byte) : BitVec 21 := (b1.setWidth 21 <<< 6) ||| (b0.setWidth 21 >>> 2)

/-- `M4`: length `(((b3 & 0b111) << 5) | (b0 >> 3)) + 3`, the bits of `b3` being those the offset uses too
(R97, R62 c). -/
def m4Len (b0 b3 : Byte) : BitVec 9 := (((b3.setWidth 9 &&& 7) <<< 5) ||| (b0.setWidth 9 >>> 3)) + 3

/-- `M4`: offset `(b3 << 13) | (b2 << 5) | (b1 >> 3)` (R97). -/
def m4Off (b1 b2 b3 : Byte) : BitVec 21 :=
  (b3.setWidth 21 <<< 13) ||| (b2.setWidth 21 <<< 5) ||| (b1.setWidth 21 >>> 3)

/-- `M5`: length `(b0 >> 3) + 3` (R98). -/
def m5Len (b0 : Byte) : BitVec 9 := (b0.setWidth 9 >>> 3) + 3

/-- `M5`: offset `(b2 << 8) | b1` (R98). -/
def m5Off (b1 b2 : Byte) : BitVec 21 := (b2.setWidth 21 <<< 8) ||| b1.setWidth 21

/-- A match token whose first two bytes are `b0`, `b1`, the two bytes of the lookahead having been found (R90).
The tests stand in the priority order of R91, `M4` before `M5` (R154). -/
def decodeMatch (b0 b1 : Byte) (rest : List Byte) : Decoded :=
  if b0 &&& 3 = 0 then .element (.m1 (m1Off b0))
  else if b0 &&& 3 = 2 then .element (.m2 (m2Len b0) (m2Off b0 b1))
  else if b0 &&& 3 = 1 then .element (.m3 (m3Off b0 b1))
  else if b0 &&& 7 = 7 then
    match rest with
    | b2 :: b3 :: _ => .element (.m4 (m4Len b0 b3) (m4Off b1 b2 b3) (b1.setWidth 3))
    | _ => .short .token
  else
    match rest with
    | b2 :: _ => .element (.m5 (m5Len b0) (m5Off b1 b2))
    | _ => .short .token

/-- The decoder, total on any bytes (R59, R61). `bytes` are the input bytes that remain, the element's first byte
first; more than four are not looked at. -/
def decode (slot : Slot) (bytes : List Byte) : Decoded :=
  match slot with
  | .indicator =>
    match bytes with
    | w0 :: w1 :: w2 :: w3 :: _ => .element (.ind (indWord w0 w1 w2 w3))
    | _ => .short .refill
  | .literal =>
    match bytes with
    | v :: _ => .element (.lit v)
    | [] => .short .literal
  | .matchToken =>
    match bytes with
    | b0 :: b1 :: rest => decodeMatch b0 b1 rest
    | _ => .short .token

/-- The number of bytes an element consumes (R50, R100). -/
def Instr.size : Instr → Nat
  | .ind _ => 4
  | .lit _ => 1
  | .m1 _ => 1
  | .m2 _ _ => 2
  | .m3 _ => 2
  | .m4 _ _ _ => 4
  | .m5 _ _ => 3

/-- The encoding functions of R63: the bytes of a well-formed element, the lowest index first. -/
def encode : Instr → List Byte
  | .ind w => [w.setWidth 8, (w >>> 8).setWidth 8, (w >>> 16).setWidth 8, (w >>> 24).setWidth 8]
  | .lit v => [v]
  | .m1 off => [off.setWidth 8 <<< 2]
  | .m2 len off =>
    [((off &&& 3).setWidth 8 <<< 6) ||| ((len - 3).setWidth 8 <<< 2) ||| 2, (off >>> 2).setWidth 8]
  | .m3 off => [((off &&& 63).setWidth 8 <<< 2) ||| 1, (off >>> 6).setWidth 8]
  | .m4 len off x =>
    [(((len - 3) &&& 31).setWidth 8 <<< 3) ||| 7, ((off &&& 31).setWidth 8 <<< 3) ||| x.setWidth 8,
      (off >>> 5).setWidth 8, (off >>> 13).setWidth 8]
  | .m5 len off => [((len - 3).setWidth 8 <<< 3) ||| 3, off.setWidth 8, (off >>> 8).setWidth 8]

/-! An opcode-table word. -/

/-- The four bytes of an opcode-table word, the first word's byte first, the bits above it zero. -/
def tableBytes (nbits w : Nat) : List Byte :=
  let v := w % 2 ^ nbits
  [BitVec.ofNat 8 v, BitVec.ofNat 8 (v / 2 ^ 8), BitVec.ofNat 8 (v / 2 ^ 16), BitVec.ofNat 8 (v / 2 ^ 24)]

/-- The position an opcode-table word is read at. The table's rows are told apart by the control bit or the position
as well as by the word (R65), and the word does not hold these; nor need it hold a row's bytes after the first. Where
the lead byte selects a match shape at least as long as the word, it is read as a match token; otherwise a word of
four bytes is an indicator word, and a word of no bits a literal. DESIGN CHOICE, assumption 13. -/
def tableSlot (nbits w : Nat) : Option Slot :=
  if nbits = 0 then some .literal
  else if nbits ≤ 8 then some .matchToken
  else if nbits ≤ 16 ∧ w % 4 ≠ 0 then some .matchToken
  else if nbits ≤ 24 ∧ w % 4 = 3 then some .matchToken
  else if nbits ≤ 32 ∧ w % 8 = 7 then some .matchToken
  else if nbits = 32 then some .indicator
  else none

/-- The instruction the decoder reads from the opcode-table word `w` of `nbits` bits. -/
def decodeTableWord (nbits w : Nat) : Option Instr :=
  match tableSlot nbits w with
  | none => none
  | some slot =>
    match decode slot (tableBytes nbits w) with
    | .element i => some i
    | .short _ => none

end Sys2Proof
end

