-- ==== Sys2Proof/Machine/State.lean ====
section
/-! DEFINITION. The state of one engine: the eleven registers and two memories of R10 and R24, and the model's own record of the host
(assumptions 3, 5, 7). Plain data throughout. -/

namespace Sys2Proof.Machine

/-- `phase`, the control state (R18). -/
inductive Phase where
  /-- After hardware reset, no decode started. -/
  | idle
  /-- At the head of the main loop. -/
  | run
  /-- Inside a match token's copy loop. -/
  | copy
  /-- Decode over, result valid. -/
  | halted
  deriving DecidableEq, Repr

/-- `cause`: why the decode halted (R19, R126). -/
inductive Cause where
  | none
  | outFull
  | inEmpty
  | refillShort
  | litShort
  | tokenShort
  | srcUnderflow
  | outFullCopy
  deriving DecidableEq, Repr

/-- The host-visible registers (R20). -/
inductive HostReg where
  | inLen
  | outCap
  | start
  | state
  | outLen
  deriving DecidableEq, Repr

/-- What happens next outside the engine, or that the engine takes its turn (R115 to R121, R145, R150). -/
inductive HostEvent where
  /-- The host does nothing and the engine takes one step. -/
  | engineTurn
  /-- Write of `IN_LEN` (R116). -/
  | writeInLen (v : BitVec 32)
  /-- Write of `OUT_CAP` (R116). -/
  | writeOutCap (v : BitVec 32)
  /-- Write of `START` (R117). -/
  | writeStart (v : BitVec 1)
  /-- The host stores a byte in `IN` (R24, R148). -/
  | storeIn (a : BitVec 32) (v : BitVec 8)
  /-- The host stores a byte in `OUT` (R121: allowed outside a decode, never needed). -/
  | storeOut (a : BitVec 32) (v : BitVec 8)
  /-- Read of a register (R20). -/
  | readReg (r : HostReg)
  /-- Read of one byte of `OUT` (R44). -/
  | readOut (a : BitVec 32)
  /-- Hardware reset is asserted (R145, R150). -/
  | hardReset
  deriving DecidableEq, Repr

/-- A byte memory: (index, byte) pairs, indices strictly rising. An index that is not listed holds no value the
model names. -/
abbrev Memory := List Host.Cell

/-- What stops the machine. -/
inductive Fault where
  /-- Raised by LIT alone, executed in a state with `out_idx >= out_cap`: `MemWrite(OUT)` is not defined there
  (R35). No run reaches such a state (R71). Safe: the model stops and says nothing. -/
  | outWriteBeyondCapacity
  deriving DecidableEq, Repr

/-- What the model gives no meaning. -/
inductive Refusal where
  /-- Raised by an arm of exec whose instruction has no meaning yet. Safe: nothing is claimed of it. -/
  | notModelled (mnemonic : String)
  /-- Raised by a host write of `IN`, `OUT`, `IN_LEN` or `OUT_CAP` while the engine is in RUN or COPY: a breach of
  duty (c), to which the spec gives no meaning (R121, U8). Safe: nothing is claimed of such a run. -/
  | hostWriteWhileBusy
  deriving DecidableEq, Repr

/-- The state of one engine and of its host. -/
structure State where
  /-- `in_len` (R10, R116). -/
  inLen : Word
  /-- `out_cap` (R10, R116). -/
  outCap : Word
  /-- `out_idx`, the write cursor (R11). -/
  outIdx : Word
  /-- `in_idx`, the program counter (R12, R13). -/
  inIdx : Word
  /-- `bit_pos` (R14). -/
  bitPos : BitVec 5
  /-- `ind`, the indicator word (R15). -/
  ind : Word
  /-- `m_len` (R16). -/
  mLen : BitVec 9
  /-- `m_off` (R16). -/
  mOff : BitVec 21
  /-- `cnt` (R16). -/
  cnt : BitVec 9
  /-- `phase` (R18). -/
  phase : Phase
  /-- `cause` (R19). -/
  cause : Cause
  /-- The input memory `IN` (R24). -/
  inMem : Memory
  /-- The output memory `OUT` (R24). -/
  outMem : Memory
  /-- The model's own: what is still to happen, the next first; when it is empty the engine runs alone
  (assumption 3). -/
  host : List HostEvent
  /-- The model's own: what the host's last read returned (assumption 7). -/
  hostData : Option Word
  /-- The model's own: the hardware resets so far, the index of the values they leave open (assumption 5). -/
  resets : Nat
  /-- The model's own: the unspecified values the host has read so far (assumption 7). -/
  draws : Nat
  deriving DecidableEq, Repr

/-- The machine right after reset (R26, R145): `phase` and `cause` as the spec says. The other registers are
unspecified there; zero is the model's DESIGN CHOICE (assumption 4). -/
def State.reset : State where
  inLen := 0
  outCap := 0
  outIdx := 0
  inIdx := 0
  bitPos := 0
  ind := 0
  mLen := 0
  mOff := 0
  cnt := 0
  phase := .idle
  cause := .none
  inMem := []
  outMem := []
  host := []
  hostData := none
  resets := 0
  draws := 0

end Sys2Proof.Machine
end

