-- ==== Sys2Proof/Machine/Ops.lean ====
section
/-! DEFINITION. The named operations over memory and registers, the halt transition (this engine's only exception, R131) and the two
ways out of HALTED: START and hardware reset (R135). -/

namespace Sys2Proof.Machine

/-! Memory. -/

/-- The byte listed at an index. -/
def Memory.read (m : Memory) (a : Nat) : Option Byte :=
  match m with
  | [] => none
  | (b, v) :: rest => if a = b then some v else Memory.read rest a

/-- Store a byte, keeping the indices strictly rising. -/
def Memory.write (m : Memory) (a : Nat) (v : Byte) : Memory :=
  match m with
  | [] => [(a, v)]
  | (b, u) :: rest =>
    if a < b then (a, v) :: (b, u) :: rest
    else if a = b then (a, v) :: rest
    else (b, u) :: Memory.write rest a v

/-- Every listed index is greater than `lo`, and the indices rise strictly. -/
def Memory.wfAbove (lo : Nat) (m : Memory) : Bool :=
  match m with
  | [] => true
  | (b, _) :: rest => decide (lo < b) && Memory.wfAbove b rest

/-- The canonical form: indices strictly rising. An unlisted index reads as no value, so no entry can equal it. -/
def Memory.wf (m : Memory) : Bool :=
  match m with
  | [] => true
  | (b, _) :: rest => Memory.wfAbove b rest

/-- `MemRead(IN, a, 1)` (R33). A byte the host has not stored is unspecified (R26, U3): a free value, the same at
every read until the next reset (R43). -/
def inByte (s : State) (a : Nat) : Byte :=
  match Memory.read s.inMem a with
  | some v => v
  | none => Config.unwrittenIn s.resets a

/-- `MemRead(OUT, a, 1)` (R34). A byte nothing has written is unspecified (R44, U2): a free value. -/
def outByte (s : State) (a : Nat) : Byte :=
  match Memory.read s.outMem a with
  | some v => v
  | none => Config.unwrittenOut s.resets a

/-! Registers. -/

/-- `remaining = in_len - in_idx` (R8). It is never negative in a run (R21); where `in_idx` is beyond `in_len` it
is 0, which fails every availability check as a negative number would. -/
def remaining (s : State) : Nat := s.inLen.toNat - s.inIdx.toNat

/-- A decode is under way: phase RUN or COPY (R20). -/
def busy (s : State) : Bool := s.phase = .run || s.phase = .copy

/-- `raise Halt(c)` (R131): cause and phase, nothing else. -/
def raiseHalt (c : Cause) (s : State) : State := { s with cause := c, phase := .halted }

/-- `in_idx <- in_idx + k` (R12). -/
def consume (k : Nat) (s : State) : State := { s with inIdx := s.inIdx + BitVec.ofNat 32 k }

/-- `bit_pos <- bit_pos + 1` (R73), in its five bits. -/
def advanceBit (s : State) : State := { s with bitPos := s.bitPos + 1 }

/-- `ind <- w; bit_pos <- 0` (R74). -/
def loadIndicator (w : Word) (s : State) : State := { s with ind := w, bitPos := 0 }

/-- `m_len`, `m_off` and `cnt` latched, phase COPY entered (R93). -/
def latchMatch (len : BitVec 9) (off : BitVec 21) (s : State) : State :=
  { s with mLen := len, mOff := off, cnt := len, phase := .copy }

/-- `MemWrite(OUT, out_idx, 1, v)` and `out_idx <- out_idx + 1` (R35, R85, R105). -/
def emit (v : Byte) (s : State) : State :=
  { s with outMem := Memory.write s.outMem s.outIdx.toNat v, outIdx := s.outIdx + 1 }

/-- START (R27, R117, R146): step 1 of the source's algorithm. `OUT`, `ind` and the latches keep what they held. -/
def beginDecode (s : State) : State :=
  { s with outIdx := 0, inIdx := 0, bitPos := Config.bitPosInit, cause := .none, phase := .run }

/-- Hardware reset as an event (R145, R150): phase IDLE and cause NONE; every other register and both memories are
left unspecified, as free values of this reset. What the host has yet to do and has read is the host's own. -/
def hardReset (s : State) : State :=
  { s with
    inLen := Config.resetInLen s.resets
    outCap := Config.resetOutCap s.resets
    outIdx := Config.resetOutIdx s.resets
    inIdx := Config.resetInIdx s.resets
    bitPos := Config.resetBitPos s.resets
    ind := Config.resetInd s.resets
    mLen := Config.resetMLen s.resets
    mOff := Config.resetMOff s.resets
    cnt := Config.resetCnt s.resets
    phase := .idle
    cause := .none
    inMem := []
    outMem := []
    resets := s.resets + 1 }

/-! Codes. -/

/-- The codes of the register `STATE` (R20). -/
def phaseCode : Phase → BitVec 2
  | .idle => 0
  | .run => 1
  | .copy => 2
  | .halted => 3

/-- The codes of `cause` (R126). -/
def causeCode : Cause → BitVec 3
  | .none => 0
  | .outFull => 1
  | .inEmpty => 2
  | .refillShort => 3
  | .litShort => 4
  | .tokenShort => 5
  | .srcUnderflow => 6
  | .outFullCopy => 7

/-- The cause that running out of bytes in the decoder is (R74, R85, R90, R92). -/
def shortCause : Short → Cause
  | .refill => .refillShort
  | .literal => .litShort
  | .token => .tokenShort

end Sys2Proof.Machine
end

