-- ==== Sys2Proof/Machine/Operands.lean ====
section
/-! DEFINITION. The two places an element's operands come from: the input bytes at `in_idx` (R33) and the output byte a back-reference
points to (R106). -/

namespace Sys2Proof.Machine

/-- The input bytes at `in_idx`, up to the longest element's four, never one at or beyond `in_len` (R33, R37). -/
def inputWindow (s : State) : List Byte :=
  (List.range (min 4 (remaining s))).map (fun k => inByte s (s.inIdx.toNat + k))

/-- `src = out_idx - m_off - 1` over the integers (R106, D22). -/
def copySource (s : State) : Int := (s.outIdx.toNat : Int) - s.mOff.toNat - 1

end Sys2Proof.Machine
end

