-- ==== Sys2Proof/Machine/Copy.lean ====
section
/-! DEFINITION. The copy step: the second half of every match token, one byte a step (R105). -/

namespace Sys2Proof.Machine

/-- `cnt <- cnt - 1`, and back to the main loop at 0 (R105). -/
def countDown (s : State) : State :=
  { s with cnt := s.cnt - 1, phase := if s.cnt - 1 = 0 then .run else s.phase }

/-- The copy step (R105), its tests in the order of R107. With `cnt = 0`, which R105 excludes, the copy is over, as
the loop of R70 says. -/
def copyStep (s : State) : State :=
  if s.cnt = 0 then { s with phase := .run }
  else if copySource s < 0 then raiseHalt .srcUnderflow s
  else if s.outCap ≤ s.outIdx then raiseHalt .outFullCopy s
  else countDown (emit (outByte s (copySource s).toNat) s)

end Sys2Proof.Machine
end

