-- ==== Sys2Proof/Machine/Indicator.lean ====
section
/-! DEFINITION. The meaning of IND: the indicator refill (R74). -/

namespace Sys2Proof.Machine

/-- `IND` (R74): halt REFILL_SHORT with fewer than 4 bytes remaining, else load the word and consume it. -/
def execInd (w : Word) (s : State) : Host.Outcome State Fault Refusal :=
  if remaining s < Config.indBytes then .next (raiseHalt .refillShort s)
  else .next (consume Config.indBytes (loadIndicator w s))

end Sys2Proof.Machine
end

