-- ==== Sys2Proof/Machine/Literal.lean ====
section
/-! DEFINITION. The meaning of LIT: one input byte copied to the output (R85). -/

namespace Sys2Proof.Machine

/-- `LIT` (R85): halt LIT_SHORT with no byte remaining, else write the byte and advance both indices. It does not
test the output itself; in a state where the output is full, which no loop guard lets through, the write is not
defined (R35) and the machine faults. -/
def execLit (v : Byte) (s : State) : Host.Outcome State Fault Refusal :=
  if remaining s < 1 then .next (raiseHalt .litShort s)
  else if s.outIdx < s.outCap then .next (consume 1 (emit v s))
  else .fault .outWriteBeyondCapacity

end Sys2Proof.Machine
end

