-- ==== Sys2Proof/Machine/Match.lean ====
section
/-! DEFINITION. The meanings of the five match tokens up to the start of the copy (R90 to R98). -/

namespace Sys2Proof.Machine

/-- What every match token does with its fields (R90, R92, R93): halt TOKEN_SHORT unless two bytes remain and then
unless its own bytes do; otherwise consume them, latch the fields and enter the copy. -/
def beginMatch (size : Nat) (len : BitVec 9) (off : BitVec 21) (s : State) : Host.Outcome State Fault Refusal :=
  if remaining s < Config.matchLookahead then .next (raiseHalt .tokenShort s)
  else if remaining s < size then .next (raiseHalt .tokenShort s)
  else .next (consume size (latchMatch len off s))

/-- `M1`: one byte, length 3 (R94). -/
def execM1 (off : BitVec 21) (s : State) : Host.Outcome State Fault Refusal :=
  beginMatch 1 Config.minMatch off s

/-- `M2`: two bytes (R95). -/
def execM2 (len : BitVec 9) (off : BitVec 21) (s : State) : Host.Outcome State Fault Refusal :=
  beginMatch 2 len off s

/-- `M3`: two bytes, length 3 (R96). -/
def execM3 (off : BitVec 21) (s : State) : Host.Outcome State Fault Refusal :=
  beginMatch 2 Config.minMatch off s

/-- `M4`: four bytes; the ignored field has no effect (R97, R62 b). -/
def execM4 (len : BitVec 9) (off : BitVec 21) (_x : BitVec 3) (s : State) : Host.Outcome State Fault Refusal :=
  beginMatch 4 len off s

/-- `M5`: three bytes (R98). -/
def execM5 (len : BitVec 9) (off : BitVec 21) (s : State) : Host.Outcome State Fault Refusal :=
  beginMatch 3 len off s

end Sys2Proof.Machine
end

