-- ==== Sys2Proof/Machine/Dispatch.lean ====
section
/-! DEFINITION. One arm for each element of the payload. -/

namespace Sys2Proof.Machine

def exec (i : Instr) (s : State) : Host.Outcome State Fault Refusal :=
  match i with
  | .ind w => Sys2Proof.Machine.execInd w s
  | .lit v => Sys2Proof.Machine.execLit v s
  | .m1 off => Sys2Proof.Machine.execM1 off s
  | .m2 len off => Sys2Proof.Machine.execM2 len off s
  | .m3 off => Sys2Proof.Machine.execM3 off s
  | .m4 len off x => Sys2Proof.Machine.execM4 len off x s
  | .m5 len off => Sys2Proof.Machine.execM5 len off s

end Sys2Proof.Machine
end

