-- ==== Sys2Proof/Machine/Flags.lean ====
section
/-! DEFINITION. The engine has no flags (R17). What plays that role for one step is the control bit, a combinational value. -/

namespace Sys2Proof.Machine

/-- The control bit `ind[bit_pos]`: the bit of weight 2^`bit_pos` (R72, the spec's decision D1). -/
def controlBit (s : State) : Bool := s.ind.getLsbD s.bitPos.toNat

/-- Dispatch on the control bit: clear selects a literal, set a match token (R75). -/
def tokenSlot (s : State) : Slot := if controlBit s then .matchToken else .literal

end Sys2Proof.Machine
end

