-- ==== Sys2Proof/Machine/Sequencer.lean ====
section
/-! DEFINITION. The engine's own sequencing: the token step and what each phase does (R70, R71, R73 to R75, R78). -/

namespace Sys2Proof.Machine

/-- Fetch the element that stands at `in_idx` in this position, and run it; with too few bytes, halt
(R74, R85, R90, R92). -/
def fetchAndRun (slot : Slot) (s : State) : Host.Outcome State Fault Refusal :=
  match decode slot (inputWindow s) with
  | .element i => exec i s
  | .short why => .next (raiseHalt (shortCause why) s)

/-- The literal or match token of a token step, chosen by the control bit (R75). -/
def runToken (s : State) : Host.Outcome State Fault Refusal := fetchAndRun (tokenSlot s) s

/-- The refill and the token that always follows it in the same step, unless the refill halts (R74). -/
def refillThenToken (s : State) : Host.Outcome State Fault Refusal :=
  match fetchAndRun .indicator s with
  | .next t => if t.phase = .halted then .next t else runToken t
  | .fault r => .fault r
  | .refused r => .refused r

/-- A token step whose loop guard has passed: advance `bit_pos`, refill at 31, then the token (R73, R74, R75). -/
def afterGuard (s : State) : Host.Outcome State Fault Refusal :=
  if (advanceBit s).bitPos = Config.ctlBits then refillThenToken (advanceBit s) else runToken (advanceBit s)

/-- The token step (R78), its loop guard in the order of R71. -/
def tokenStep (s : State) : Host.Outcome State Fault Refusal :=
  if ¬ s.outIdx < s.outCap then .next (raiseHalt .outFull s)
  else if ¬ s.inIdx < s.inLen then .next (raiseHalt .inEmpty s)
  else afterGuard s

/-- One step of the engine by itself (R78). In IDLE and HALTED it has none and nothing changes (R135, R139, R149). -/
def engineStep (s : State) : Host.Outcome State Fault Refusal :=
  match s.phase with
  | .idle => .next s
  | .run => tokenStep s
  | .copy => .next (copyStep s)
  | .halted => .next s

/-! Placing one instruction for the next step. -/

/-- The four input bytes of an opcode-table word at the start of `IN`, in a decode whose next token step takes it
in the position `tableSlot` names. -/
def placeWord (s : State) (nbits w : Nat) : State :=
  let slot := (tableSlot nbits w).getD .literal
  let placed := (tableBytes nbits w).zipIdx.foldl (fun m p => Memory.write m p.2 p.1) s.inMem
  { s with
    inMem := placed
    inLen := 4
    inIdx := 0
    outIdx := 0
    outCap := 1
    bitPos := if slot = .indicator then Config.bitPosInit else 0
    ind := if slot = .matchToken then BitVec.allOnes 32 else 0
    phase := .run
    cause := .none
    host := [] }

end Sys2Proof.Machine
end

