-- ==== Sys2Proof/Machine/HostPort.lean ====
section
/-! DEFINITION. The host's side: parameter writes, START, reads and hardware reset (R20, R44, R115 to R121, R145). -/

namespace Sys2Proof.Machine

/-- A host write, allowed in IDLE and HALTED; in RUN and COPY it breaks duty (c) and the run has no meaning
(R20, R116, R121, U8). -/
def hostWrite (f : State → State) (s : State) : Host.Outcome State Fault Refusal :=
  if busy s then .refused .hostWriteWhileBusy else .next (f s)

/-- A write of `START` (R117): 1 begins a decode in IDLE and HALTED and is ignored in RUN and COPY; 0 has no effect. -/
def writeStart (v : BitVec 1) (s : State) : State :=
  if v = 1 ∧ ¬ busy s then beginDecode s else s

/-- A host read that returns a definite value. -/
def answer (v : Word) (s : State) : State := { s with hostData := some v }

/-- A host read to which the spec gives no value (U9): a fresh free value. -/
def answerUnspecified (s : State) : State :=
  { s with hostData := some (Config.unspecifiedRead s.draws), draws := s.draws + 1 }

/-- A host read of a byte to which the spec gives no value (U2, U9): a fresh free byte. -/
def answerUnspecifiedByte (s : State) : State :=
  { s with hostData := some (((Config.unspecifiedRead s.draws).setWidth 8).setWidth 32), draws := s.draws + 1 }

/-- A read of a host-visible register (R20). `STATE` may be read at any time, the parameters in IDLE and HALTED,
`OUT_LEN` in HALTED; any other read, and any read of `START`, returns an unspecified value (U9). -/
def hostReadReg (r : HostReg) (s : State) : State :=
  match r with
  | .inLen => if busy s then answerUnspecified s else answer s.inLen s
  | .outCap => if busy s then answerUnspecified s else answer s.outCap s
  | .start => answerUnspecified s
  | .state => answer ((phaseCode s.phase).setWidth 32) s
  | .outLen => if s.phase = .halted then answer s.outIdx s else answerUnspecified s

/-- A read of `OUT[a]` (R44): defined in HALTED for `a < OUT_LEN`. -/
def hostReadOut (a : Word) (s : State) : State :=
  if s.phase = .halted ∧ a < s.outIdx then answer ((outByte s a.toNat).setWidth 32) s else answerUnspecifiedByte s

/-- One event, `s` being the state with the event taken off its list. -/
def hostAct (e : HostEvent) (s : State) : Host.Outcome State Fault Refusal :=
  match e with
  | .engineTurn => engineStep s
  | .writeInLen v => hostWrite (fun t => { t with inLen := v }) s
  | .writeOutCap v => hostWrite (fun t => { t with outCap := v }) s
  | .writeStart v => .next (writeStart v s)
  | .storeIn a v => hostWrite (fun t => { t with inMem := Memory.write t.inMem a.toNat v }) s
  | .storeOut a v => hostWrite (fun t => { t with outMem := Memory.write t.outMem a.toNat v }) s
  | .readReg r => .next (hostReadReg r s)
  | .readOut a => .next (hostReadOut a s)
  | .hardReset => .next (hardReset s)

/-- What happens next: the first event of the host's list, or, with none left, the engine's own step. -/
def advance (s : State) : Host.Outcome State Fault Refusal :=
  match s.host with
  | [] => engineStep s
  | e :: rest => hostAct e { s with host := rest }

end Sys2Proof.Machine
end

