-- ==== Sys2Proof/Machine/Step.lean ====
section
/-! DEFINITION. The step of the whole machine, engine and host together. -/

namespace Sys2Proof.Machine

/-- One step (R78, R115). -/
def step (s : State) : Host.Outcome State Fault Refusal := advance s

/-- `s` with one instruction placed where the next step fetches, and a decode under way, so that `step` runs it
(assumption 13). -/
def State.withFetchWord (s : State) (nbits w : Nat) : State := placeWord s nbits w

end Sys2Proof.Machine
end

