-- ==== Sys2Proof/Machine/Reference.lean ====
section
/-! DEFINITION. The reference algorithm of R70 in its own shape: a whole decode as one function over lists and natural numbers, with none
of the engine's registers, memories, steps or decoder. Statements compare the engine with it. -/

namespace Sys2Proof.Machine

/-- What `decode` of R70 leaves: the output bytes and the ghost values of U10. -/
structure RefResult where
  out : List Byte
  cause : Cause
  inIdx : Nat
  bitPos : Nat
  deriving DecidableEq, Repr

/-- The copy loop of R70, `n` bytes still to copy; cause `none` says that the copy completed. -/
def refCopy (cap off n : Nat) (out : List Byte) : List Byte × Cause :=
  match n with
  | 0 => (out, .none)
  | n + 1 =>
    if out.length < off + 1 then (out, .srcUnderflow)
    else if cap ≤ out.length then (out, .outFullCopy)
    else refCopy cap off n (out ++ [out.getD (out.length - off - 1) 0])

/-- The size of a match token from its lead byte (R70, R91). -/
def refSize (b0 : Nat) : Nat :=
  if b0 &&& 3 = 0 then 1
  else if b0 &&& 3 = 2 then 2
  else if b0 &&& 3 = 1 then 2
  else if b0 &&& 7 = 7 then 4
  else 3

/-- Length and offset of a match token from its bytes (R60). -/
def refFields (b0 b1 b2 b3 : Nat) : Nat × Nat :=
  if b0 &&& 3 = 0 then (3, b0 >>> 2)
  else if b0 &&& 3 = 2 then (((b0 >>> 2) &&& 0xF) + 3, (b1 <<< 2) ||| (b0 >>> 6))
  else if b0 &&& 3 = 1 then (3, (b1 <<< 6) ||| (b0 >>> 2))
  else if b0 &&& 7 = 7 then
    ((((b3 &&& 7) <<< 5) ||| (b0 >>> 3)) + 3, (b3 <<< 13) ||| (b2 <<< 5) ||| (b1 >>> 3))
  else ((b0 >>> 3) + 3, (b2 <<< 8) ||| b1)

/-- What one token of R70's loop comes to. -/
inductive RefToken where
  /-- The decode ends here. -/
  | stop (r : RefResult)
  /-- The loop goes on with this output and this index. -/
  | more (out : List Byte) (inIdx : Nat)
  deriving DecidableEq, Repr

/-- The byte of the payload at an index, as a number; read only below the payload's length. -/
def refByte (payload : List Byte) (k : Nat) : Nat := (payload.getD k 0).toNat

/-- The body of R70's loop from the control bit on. -/
def refToken (payload : List Byte) (cap : Nat) (out : List Byte) (inIdx bitPos ind : Nat) : RefToken :=
  if (ind >>> bitPos) &&& 1 = 0 then
    if payload.length - inIdx < 1 then .stop ⟨out, .litShort, inIdx, bitPos⟩
    else .more (out ++ [payload.getD inIdx 0]) (inIdx + 1)
  else if payload.length - inIdx < 2 then .stop ⟨out, .tokenShort, inIdx, bitPos⟩
  else
    let size := refSize (refByte payload inIdx)
    if payload.length - inIdx < size then .stop ⟨out, .tokenShort, inIdx, bitPos⟩
    else
      let f := refFields (refByte payload inIdx) (refByte payload (inIdx + 1)) (refByte payload (inIdx + 2))
        (refByte payload (inIdx + 3))
      let r := refCopy cap f.2 f.1 out
      if r.2 = .none then .more r.1 (inIdx + size) else .stop ⟨r.1, r.2, inIdx + size, bitPos⟩

/-- R70's loop. Every token that does not end the decode consumes a byte, so `fuel` greater than the payload's
length is never used up. -/
def refLoop (payload : List Byte) (cap fuel : Nat) (out : List Byte) (inIdx bitPos ind : Nat) : RefResult :=
  match fuel with
  | 0 => ⟨out, .none, inIdx, bitPos⟩
  | fuel + 1 =>
    if ¬ out.length < cap then ⟨out, .outFull, inIdx, bitPos⟩
    else if ¬ inIdx < payload.length then ⟨out, .inEmpty, inIdx, bitPos⟩
    else if bitPos + 1 = 31 then
      if payload.length - inIdx < 4 then ⟨out, .refillShort, inIdx, 31⟩
      else
        let w := refByte payload inIdx ||| (refByte payload (inIdx + 1) <<< 8) |||
          (refByte payload (inIdx + 2) <<< 16) ||| (refByte payload (inIdx + 3) <<< 24)
        match refToken payload cap out (inIdx + 4) 0 w with
        | .stop r => r
        | .more out' inIdx' => refLoop payload cap fuel out' inIdx' 0 w
    else
      match refToken payload cap out inIdx (bitPos + 1) ind with
      | .stop r => r
      | .more out' inIdx' => refLoop payload cap fuel out' inIdx' (bitPos + 1) ind

/-- `decode(IN, in_len, out_cap)` of R70. The indicator word has no value at the start; 0 stands in its place and is
never tested (R147). -/
def refDecode (payload : List Byte) (cap : Nat) : RefResult :=
  refLoop payload cap (payload.length + 1) [] 0 30 0

end Sys2Proof.Machine
end

