-- ==== Sys2Proof/Safety.lean ====
section
/-! DEFINITION. What statements about runs are made of: the invariants of the state (R14, R16, R21 to R23, R109), a launched decode
(R27, R148), a run of steps, its bound (R157) and its result (R29). -/

namespace Sys2Proof.Safety

open Sys2Proof.Machine

/-- The bounds of a decode under way: no index beyond its limit, no cause yet, a control-bit position among the 31
(R14, R21, R22), and every output byte below the cursor written (R23). -/
structure DecodeBounds (s : State) : Prop where
  in_bound : s.inIdx ≤ s.inLen
  out_bound : s.outIdx ≤ s.outCap
  written : ∀ a, a < s.outIdx.toNat → (Memory.read s.outMem a).isSome = true
  bit_bound : s.bitPos.toNat ≤ 30
  no_cause : s.cause = .none

/-- What the latches hold inside a copy: a length a token can have, a count still to go, room in the output before
the first byte (R107), and a source inside the output after it (R109). -/
structure CopyBounds (s : State) : Prop where
  len_low : 3 ≤ s.mLen.toNat
  len_high : s.mLen.toNat ≤ 258
  cnt_low : 1 ≤ s.cnt.toNat
  cnt_high : s.cnt.toNat ≤ s.mLen.toNat
  first_has_room : s.cnt = s.mLen → s.outIdx < s.outCap
  later_has_source : s.cnt.toNat < s.mLen.toNat → s.mOff.toNat < s.outIdx.toNat

/-- The state invariant: canonical memories in every phase, and what each phase promises. -/
structure EngineInv (s : State) : Prop where
  in_canonical : Memory.wf s.inMem = true
  out_canonical : Memory.wf s.outMem = true
  idle : s.phase = .idle → s.cause = .none
  run : s.phase = .run → DecodeBounds s
  copy : s.phase = .copy → DecodeBounds s ∧ CopyBounds s
  halted : s.phase = .halted → s.cause ≠ .none

/-- A decode of `payload` with capacity `cap` has just been started and the host leaves the engine alone
(R27, R121, R148). `OUT`, `ind` and the latches hold anything. -/
structure Launched (payload : List Byte) (cap : Word) (s : State) : Prop where
  phase_run : s.phase = .run
  no_cause : s.cause = .none
  out_zero : s.outIdx = 0
  in_zero : s.inIdx = 0
  bit_init : s.bitPos = 30
  len_is : s.inLen.toNat = payload.length
  cap_is : s.outCap = cap
  loaded : ∀ k, k < payload.length → Memory.read s.inMem k = payload[k]?
  alone : s.host = []

/-- `n` steps of the machine. -/
def runSteps (n : Nat) (s : State) : Host.Outcome State Fault Refusal := Host.Core.run Sys2Proof.core n s

/-- The bound on the steps of a decode (R157): token steps and copy steps. -/
def stepBound (inLen cap : Nat) : Nat := (min inLen cap + 1) + (cap + 1)

/-- The result of a decode: `OUT[0 .. out_idx-1]` (R29). -/
def produced (s : State) : List Byte := (List.range s.outIdx.toNat).map (outByte s)

/-- The host's set-up for a decode and the start, in the order of R148: the payload byte by byte, the two
parameters, START. -/
def setUpEvents (payload : List Byte) (cap : Word) : List HostEvent :=
  payload.zipIdx.map (fun p => .storeIn (BitVec.ofNat 32 p.2) p.1) ++
    [.writeInLen (BitVec.ofNat 32 payload.length), .writeOutCap cap, .writeStart 1]

/-- What no step of the engine changes (R43, R116): the parameters, the input memory, and the model's record of the
host. -/
def sameSurroundings (s t : State) : Prop :=
  t.inLen = s.inLen ∧ t.outCap = s.outCap ∧ t.inMem = s.inMem ∧ t.host = s.host ∧ t.hostData = s.hostData ∧
    t.resets = s.resets ∧ t.draws = s.draws

/-- The state a token step tests its control bit in: `bit_pos` advanced (R73), the word refilled where that is due
(R74). -/
def tokenState (s : State) : State :=
  if (advanceBit s).bitPos = Config.ctlBits then
    consume 4 (loadIndicator (indWord (inByte s s.inIdx.toNat) (inByte s (s.inIdx.toNat + 1))
      (inByte s (s.inIdx.toNat + 2)) (inByte s (s.inIdx.toNat + 3))) (advanceBit s))
  else advanceBit s

/-- The `k`-th input byte not yet consumed, as a number. -/
def nextByte (s : State) (k : Nat) : Nat := (inByte s (s.inIdx.toNat + k)).toNat

/-- The control bit of the present token is set: `(ind >> bit_pos) & 1` is 1 (R72). -/
def controlSet (s : State) : Prop := (s.ind.toNat >>> s.bitPos.toNat) &&& 1 = 1

/-- The match token that stands at `in_idx` is decoded with this size, length and offset: its bytes are consumed and
the latches loaded (R94 to R98). -/
def takenAsMatch (s : State) (size len off : Nat) : Prop :=
  ∃ t, fetchAndRun .matchToken s = .next t ∧ t.mLen.toNat = len ∧ t.mOff.toNat = off ∧
    t.inIdx = s.inIdx + BitVec.ofNat 32 size

/-- A whole decode from `s`, `payload` and `cap` being what `s` launches, ends in `t`. -/
def decodesTo (payload : List Byte) (cap : Word) (s t : State) : Prop :=
  runSteps (stepBound payload.length cap.toNat) s = .next t ∧ t.phase = .halted

end Sys2Proof.Safety
end

