-- ==== Sys2Proof/Certificates/Slice0/Obligations.lean ====
section
/-! DEFINITION. The statements about the engine: one `def Obligations.<Name> : Prop` each, listed in OBLIGATIONS.json. A docstring names
the rule of spec/ a statement follows; where that rule is a decision of the spec, or the clause is a choice of the model, it
says so. The names of the halt causes are the spec's decision D14 in every statement. -/

open Sys2Proof Sys2Proof.Machine Sys2Proof.Safety

/-! Reset and the host. -/

/-- R26, R145 (the spec's decision D15): after reset `phase` is IDLE and `cause` NONE, whatever the phase was, and
an engine left alone then does nothing. The other registers are open there and nothing is said of them. -/
def Obligations.HardResetEntersIdle : Prop :=
  State.reset.phase = .idle ∧ State.reset.cause = .none ∧
  ∀ (s : State) (rest : List HostEvent), s.host = .hardReset :: rest →
    ∃ t, step s = .next t ∧ t.phase = .idle ∧ t.cause = .none ∧ t.host = rest ∧ (rest = [] → step t = .next t)

/-- R27, R117, R146 (the spec's decision D8): START in IDLE and HALTED sets the five registers and nothing else; in
RUN and COPY, and when 0 is written, nothing changes. -/
def Obligations.StartBeginsADecode : Prop :=
  ∀ (s : State) (v : BitVec 1) (rest : List HostEvent), s.host = .writeStart v :: rest →
    (v = 1 → s.phase = .idle ∨ s.phase = .halted →
      step s = .next { s with
        host := rest, outIdx := 0, inIdx := 0, bitPos := 30, cause := .none, phase := .run }) ∧
    (v = 0 ∨ s.phase = .run ∨ s.phase = .copy → step s = .next { s with host := rest })

/-- R20, R116 (the spec's decision D6): the parameter registers hold exactly what the host writes in IDLE and
HALTED. A write in RUN or COPY is a breach of duty the model refuses (R121, U8; assumption 9). -/
def Obligations.ParametersHoldWhatIsWritten : Prop :=
  ∀ (s : State) (v : Word) (rest : List HostEvent),
    (s.host = .writeInLen v :: rest → s.phase = .idle ∨ s.phase = .halted →
      step s = .next { s with host := rest, inLen := v }) ∧
    (s.host = .writeOutCap v :: rest → s.phase = .idle ∨ s.phase = .halted →
      step s = .next { s with host := rest, outCap := v }) ∧
    (s.host = .writeInLen v :: rest ∨ s.host = .writeOutCap v :: rest → s.phase = .run ∨ s.phase = .copy →
      step s = .refused .hostWriteWhileBusy)

/-- R24, R148: a byte the host stores in `IN` outside a decode is there, at the index it was stored at, and every
other byte of `IN` and every byte of `OUT` reads as before. -/
def Obligations.StoredInputByteIsThere : Prop :=
  ∀ (s : State) (a : Word) (v : Byte) (rest : List HostEvent), s.host = .storeIn a v :: rest →
    s.phase = .idle ∨ s.phase = .halted →
    ∃ t, step s = .next t ∧ inByte t a.toNat = v ∧ (∀ b, b ≠ a.toNat → inByte t b = inByte s b) ∧
      (∀ b, outByte t b = outByte s b) ∧ t.phase = s.phase ∧ t.outIdx = s.outIdx ∧ t.host = rest

/-- R20, R44, R118 (the spec's decisions D6, D11): what the host reads. STATE has the codes 0 to 3 in every phase;
in HALTED `OUT_LEN` is `out_idx`, and `OUT[a]` for `a < OUT_LEN` is the byte of `OUT`; in IDLE and HALTED the
parameters read back. -/
def Obligations.HostReadsReturnTheResult : Prop :=
  ∀ (s : State) (rest : List HostEvent),
    (s.host = .readReg .state :: rest →
      step s = .next { s with
        host := rest
        hostData := some (match s.phase with | .idle => 0 | .run => 1 | .copy => 2 | .halted => 3) }) ∧
    (s.host = .readReg .outLen :: rest → s.phase = .halted →
      step s = .next { s with host := rest, hostData := some s.outIdx }) ∧
    (∀ a : Word, s.host = .readOut a :: rest → s.phase = .halted → a < s.outIdx →
      step s = .next { s with host := rest, hostData := some (BitVec.ofNat 32 (outByte s a.toNat).toNat) }) ∧
    (s.host = .readReg .inLen :: rest → s.phase = .idle ∨ s.phase = .halted →
      step s = .next { s with host := rest, hostData := some s.inLen }) ∧
    (s.host = .readReg .outCap :: rest → s.phase = .idle ∨ s.phase = .halted →
      step s = .next { s with host := rest, hostData := some s.outCap })

/-- R33, R44 (the model's record of reads is assumption 7): a host read of any register or output byte, in any
phase, completes, and changes nothing but what the host has read. -/
def Obligations.HostReadsChangeNothingElse : Prop :=
  ∀ (s : State) (rest : List HostEvent) (e : HostEvent), s.host = e :: rest →
    ((∃ r, e = .readReg r) ∨ ∃ a, e = .readOut a) →
    ∃ t, step s = .next t ∧ t = { s with host := rest, hostData := t.hostData, draws := t.draws }

/-- The model's own order of events (assumption 3): with no event listed, or when the next event is the engine's
turn, the engine takes its step. -/
def Obligations.EngineMovesWhenItIsItsTurn : Prop :=
  ∀ s : State, (s.host = [] → step s = engineStep s) ∧
    ∀ rest, s.host = .engineTurn :: rest → step s = engineStep { s with host := rest }

/-- R61, R125, R157 and, for the refusal, R121 with U8: a step of the machine always gives a next state, but for a
host write while RUN or COPY. -/
def Obligations.StepStopsOnlyOnBusyHostWrite : Prop :=
  ∀ s : State, (∃ t, step s = .next t) ∨
    (step s = .refused .hostWriteWhileBusy ∧ (s.phase = .run ∨ s.phase = .copy) ∧
      ∃ e rest, s.host = e :: rest ∧
        ((∃ v, e = .writeInLen v) ∨ (∃ v, e = .writeOutCap v) ∨ (∃ a v, e = .storeIn a v) ∨ ∃ a v, e = .storeOut a v))

/-! The token step. -/

/-- R71 (which cause is recorded when both tests fail is the spec's decision D5): the loop guard, output first. -/
def Obligations.LoopGuardTestsOutputFirst : Prop :=
  ∀ s : State, s.host = [] → s.phase = .run →
    (s.outCap ≤ s.outIdx → step s = .next { s with cause := .outFull, phase := .halted }) ∧
    (s.outIdx < s.outCap → s.inLen ≤ s.inIdx → step s = .next { s with cause := .inEmpty, phase := .halted }) ∧
    (s.outIdx < s.outCap → s.inIdx < s.inLen → step s = afterGuard s)

/-- R73 and R74: once the guard has passed `bit_pos` is advanced; if that makes it 31, four bytes are loaded little-endian
into `ind`, `in_idx` advances by 4 and `bit_pos` becomes 0, or, with fewer than four, the decode halts with `bit_pos`
31; the same step then goes on with the token. `bit_pos` is 0..30 when a step begins (R14). -/
def Obligations.RefillAtPositionThirtyOne : Prop :=
  ∀ s : State, s.host = [] → s.phase = .run → s.outIdx < s.outCap → s.inIdx < s.inLen →
    (s.bitPos = 30 → remaining s < 4 →
      step s = .next { s with bitPos := 31, cause := .refillShort, phase := .halted }) ∧
    (s.bitPos = 30 → 4 ≤ remaining s →
      ∃ w : Word,
        w.toNat = (nextByte s 0 ||| nextByte s 1 <<< 8 ||| nextByte s 2 <<< 16 ||| nextByte s 3 <<< 24) ∧
        exec (.ind w) (advanceBit s) = .next { s with ind := w, inIdx := s.inIdx + 4, bitPos := 0 } ∧
        step s = runToken { s with ind := w, inIdx := s.inIdx + 4, bitPos := 0 }) ∧
    (s.bitPos.toNat < 30 → step s = runToken { s with bitPos := s.bitPos + 1 })

/-- R72, R75 (that the bit is the one of weight 2^`bit_pos` is the spec's decision D1; assumption 10): the control bit
chooses between a literal and a match token. -/
def Obligations.ControlBitSelectsTheToken : Prop :=
  ∀ s : State,
    ((s.ind.toNat >>> s.bitPos.toNat) &&& 1 = 0 → runToken s = fetchAndRun .literal s) ∧
    ((s.ind.toNat >>> s.bitPos.toNat) &&& 1 = 1 → runToken s = fetchAndRun .matchToken s)

/-- R70, R78: a token step that passes its guard runs the instruction its bytes decode to, in the state with
`bit_pos` advanced and, where that is due, the indicator word refilled by IND itself; with too few bytes it halts. -/
def Obligations.StepRunsTheDecodedInstruction : Prop :=
  ∀ s : State, s.host = [] → s.phase = .run → s.outIdx < s.outCap → s.inIdx < s.inLen →
    (s.bitPos = 30 → 4 ≤ remaining s) →
    (s.bitPos = 30 → ∃ w, decode .indicator (inputWindow (advanceBit s)) = .element (.ind w) ∧
      exec (.ind w) (advanceBit s) = .next (tokenState s)) ∧
    (s.bitPos ≠ 30 → tokenState s = advanceBit s) ∧
    (∀ i, decode (tokenSlot (tokenState s)) (inputWindow (tokenState s)) = .element i →
      step s = exec i (tokenState s)) ∧
    (∀ why, decode (tokenSlot (tokenState s)) (inputWindow (tokenState s)) = .short why →
      step s = .next (raiseHalt (shortCause why) (tokenState s)))

/-! The instructions. -/

/-- IND in any state: with four bytes remaining it loads its word, without them it halts and loads nothing
(R74). -/
def Obligations.IndLoadsItsWord : Prop :=
  ∀ (w : Word) (s : State),
    (4 ≤ remaining s → exec (.ind w) s = .next { s with ind := w, inIdx := s.inIdx + 4, bitPos := 0 }) ∧
    (remaining s < 4 → exec (.ind w) s = .next { s with cause := .refillShort, phase := .halted })

/-- R85: the literal token. With the output not full, which the loop guard has established, the byte at `in_idx` is
written at `out_idx` and both advance, phase RUN kept; with no byte remaining the decode halts with nothing written. -/
def Obligations.LiteralCopiesOneByte : Prop :=
  ∀ s : State, s.outIdx < s.outCap →
    (1 ≤ remaining s →
      fetchAndRun .literal s = .next { s with
        outMem := Memory.write s.outMem s.outIdx.toNat (inByte s s.inIdx.toNat)
        inIdx := s.inIdx + 1
        outIdx := s.outIdx + 1 }) ∧
    (remaining s = 0 → fetchAndRun .literal s = .next { s with cause := .litShort, phase := .halted })

/-- LIT in any state: where it completes, where it halts, and where, in a state no run reaches, the write is not
defined and the model faults (R35, R85; assumption 8). The byte written reads back. -/
def Obligations.LitWritesItsByte : Prop :=
  ∀ (v : Byte) (s : State),
    (1 ≤ remaining s → s.outIdx < s.outCap →
      ∃ t, exec (.lit v) s = .next t ∧ outByte t s.outIdx.toNat = v ∧
        t = { s with outMem := t.outMem, inIdx := s.inIdx + 1, outIdx := s.outIdx + 1 } ∧
        t.outMem = Memory.write s.outMem s.outIdx.toNat v) ∧
    (remaining s = 0 → exec (.lit v) s = .next { s with cause := .litShort, phase := .halted }) ∧
    (1 ≤ remaining s → s.outCap ≤ s.outIdx → exec (.lit v) s = .fault .outWriteBeyondCapacity)

/-- R91: the shape of a match token is chosen by its lead byte in the priority order, `M4` before `M5`. -/
def Obligations.LeadByteSelectsTheShape : Prop :=
  ∀ b0 b1 b2 b3 : Byte,
    (b0.toNat &&& 3 = 0 → ∃ off, decode .matchToken [b0, b1, b2, b3] = .element (.m1 off)) ∧
    (b0.toNat &&& 3 = 2 → ∃ len off, decode .matchToken [b0, b1, b2, b3] = .element (.m2 len off)) ∧
    (b0.toNat &&& 3 = 1 → ∃ off, decode .matchToken [b0, b1, b2, b3] = .element (.m3 off)) ∧
    (b0.toNat &&& 7 = 7 → ∃ len off x, decode .matchToken [b0, b1, b2, b3] = .element (.m4 len off x)) ∧
    (b0.toNat &&& 3 = 3 → b0.toNat &&& 7 ≠ 7 →
      ∃ len off, decode .matchToken [b0, b1, b2, b3] = .element (.m5 len off)) ∧
    (∀ i, decode .matchToken [b0, b1, b2, b3] = .element i → i.size = refSize b0.toNat)

/-- R94: `M1`. -/
def Obligations.ShapeM1TakesOneByte : Prop :=
  ∀ s : State, 2 ≤ remaining s → nextByte s 0 &&& 3 = 0 →
    takenAsMatch s 1 3 (nextByte s 0 >>> 2) ∧ nextByte s 0 >>> 2 ≤ 63

/-- R95: `M2`. -/
def Obligations.ShapeM2TakesTwoBytes : Prop :=
  ∀ s : State, 2 ≤ remaining s → nextByte s 0 &&& 3 = 2 →
    takenAsMatch s 2 (((nextByte s 0 >>> 2) &&& 0xF) + 3) ((nextByte s 1 <<< 2) ||| (nextByte s 0 >>> 6)) ∧
    ((nextByte s 0 >>> 2) &&& 0xF) + 3 ≤ 18 ∧ (nextByte s 1 <<< 2) ||| (nextByte s 0 >>> 6) ≤ 1023

/-- R96: `M3`. -/
def Obligations.ShapeM3TakesTwoBytes : Prop :=
  ∀ s : State, 2 ≤ remaining s → nextByte s 0 &&& 3 = 1 →
    takenAsMatch s 2 3 ((nextByte s 1 <<< 6) ||| (nextByte s 0 >>> 2)) ∧
    (nextByte s 1 <<< 6) ||| (nextByte s 0 >>> 2) ≤ 16383

/-- R97: `M4`, the three low bits of `b3` in both fields and those of `b1` in neither (R62). -/
def Obligations.ShapeM4TakesFourBytes : Prop :=
  ∀ s : State, 4 ≤ remaining s → nextByte s 0 &&& 7 = 7 →
    takenAsMatch s 4 ((((nextByte s 3 &&& 7) <<< 5) ||| (nextByte s 0 >>> 3)) + 3)
      ((nextByte s 3 <<< 13) ||| (nextByte s 2 <<< 5) ||| (nextByte s 1 >>> 3)) ∧
    (((nextByte s 3 &&& 7) <<< 5) ||| (nextByte s 0 >>> 3)) + 3 ≤ 258 ∧
    (nextByte s 3 <<< 13) ||| (nextByte s 2 <<< 5) ||| (nextByte s 1 >>> 3) ≤ 2097151

/-- R98: `M5`. -/
def Obligations.ShapeM5TakesThreeBytes : Prop :=
  ∀ s : State, 3 ≤ remaining s → nextByte s 0 &&& 3 = 3 → nextByte s 0 &&& 7 ≠ 7 →
    takenAsMatch s 3 ((nextByte s 0 >>> 3) + 3) ((nextByte s 2 <<< 8) ||| nextByte s 1) ∧
    (nextByte s 0 >>> 3) + 3 ≤ 34 ∧ (nextByte s 2 <<< 8) ||| nextByte s 1 ≤ 65535

/-- R92: with two bytes remaining but fewer than the selected shape's size the decode halts, nothing consumed and
nothing written. -/
def Obligations.ShapeCutShortHalts : Prop :=
  ∀ s : State, 2 ≤ remaining s → remaining s < refSize (nextByte s 0) →
    fetchAndRun .matchToken s = .next { s with cause := .tokenShort, phase := .halted }

/-- R90 (the spec's decision D2): fewer than two bytes remaining halt any match token, an `M1` as well, with nothing
consumed. -/
def Obligations.MatchNeedsTwoBytes : Prop :=
  ∀ s : State, remaining s < 2 →
    fetchAndRun .matchToken s = .next { s with cause := .tokenShort, phase := .halted }

/-- R93 (the spec's decision D3): the five match tokens, in any state with the bytes they need, consume their bytes,
load the latches and enter the copy, and change nothing else. -/
def Obligations.MatchTokensLatchAndConsume : Prop :=
  ∀ (len : BitVec 9) (off : BitVec 21) (x : BitVec 3) (s : State), 2 ≤ remaining s →
    exec (.m1 off) s = .next { s with
      mLen := 3, mOff := off, cnt := 3, inIdx := s.inIdx + 1, phase := .copy } ∧
    exec (.m2 len off) s = .next { s with
      mLen := len, mOff := off, cnt := len, inIdx := s.inIdx + 2, phase := .copy } ∧
    exec (.m3 off) s = .next { s with
      mLen := 3, mOff := off, cnt := 3, inIdx := s.inIdx + 2, phase := .copy } ∧
    (4 ≤ remaining s → exec (.m4 len off x) s = .next { s with
      mLen := len, mOff := off, cnt := len, inIdx := s.inIdx + 4, phase := .copy }) ∧
    (3 ≤ remaining s → exec (.m5 len off) s = .next { s with
      mLen := len, mOff := off, cnt := len, inIdx := s.inIdx + 3, phase := .copy })

/-- R90, R92: a match token of any shape, in any state without the bytes it needs, halts and changes nothing
else. -/
def Obligations.MatchTokensHaltWithoutTheirBytes : Prop :=
  ∀ (i : Instr) (s : State), i.slot = .matchToken → remaining s < 2 ∨ remaining s < i.size →
    exec i s = .next { s with cause := .tokenShort, phase := .halted }

/-- The frame of IND (R74): where exec gives a next state, every byte of both memories, the output cursor, the
latches, the parameters and the host's record are unchanged, whether it loaded or halted. -/
def Obligations.IndFrame : Prop :=
  ∀ (w : Word) (s t : State), exec (.ind w) s = .next t →
    (∀ a, outByte t a = outByte s a) ∧ (∀ a, inByte t a = inByte s a) ∧
    t = { s with ind := t.ind, bitPos := t.bitPos, inIdx := t.inIdx, phase := t.phase, cause := t.cause }

/-- The frame of `M1` to `M5` (R90 to R93): where exec gives a next state, every byte of both memories, the output
cursor, the indicator word and its position, the parameters and the host's record are unchanged. -/
def Obligations.MatchFrame : Prop :=
  ∀ (i : Instr) (s t : State), i.slot = .matchToken → exec i s = .next t →
    (∀ a, outByte t a = outByte s a) ∧ (∀ a, inByte t a = inByte s a) ∧
    t = { s with mLen := t.mLen, mOff := t.mOff, cnt := t.cnt, inIdx := t.inIdx, phase := t.phase, cause := t.cause }

/-- The frame of LIT (R85): where exec gives a next state, every output byte but the one at `out_idx` reads as
before, and so does every input byte; only the two indices change, and `phase` and `cause` where it halts. -/
def Obligations.LitFrame : Prop :=
  ∀ (v : Byte) (s t : State), exec (.lit v) s = .next t →
    (∀ a, a ≠ s.outIdx.toNat → outByte t a = outByte s a) ∧ (∀ a, inByte t a = inByte s a) ∧
    t = { s with
      outMem := t.outMem, outIdx := t.outIdx, inIdx := t.inIdx, phase := t.phase, cause := t.cause }

/-! The copy. -/

/-- R105: the copy step, with `src = out_idx - m_off - 1` a signed integer and the two tests in their order. -/
def Obligations.CopyStepCopiesOneByte : Prop :=
  ∀ s : State, s.host = [] → s.phase = .copy → s.cnt ≠ 0 →
    ∀ src : Int, src = (s.outIdx.toNat : Int) - s.mOff.toNat - 1 →
    (src < 0 → step s = .next { s with cause := .srcUnderflow, phase := .halted }) ∧
    (0 ≤ src → s.outCap ≤ s.outIdx → step s = .next { s with cause := .outFullCopy, phase := .halted }) ∧
    (0 ≤ src → s.outIdx < s.outCap →
      step s = .next { s with
        outMem := Memory.write s.outMem s.outIdx.toNat (outByte s src.toNat)
        outIdx := s.outIdx + 1
        cnt := s.cnt - 1
        phase := if s.cnt = 1 then .run else .copy })

/-- R106, R111: the source index lies in -2^21 .. 2^32-2 and is negative exactly when `m_off >= out_idx`; otherwise it is the
unsigned difference, below `out_idx`; and the copy's increments and decrements do not wrap. -/
def Obligations.CopyArithmeticDoesNotWrap : Prop :=
  ∀ s : State,
    (-(2 ^ 21) ≤ copySource s ∧ copySource s ≤ 2 ^ 32 - 2) ∧
    (copySource s < 0 ↔ s.outIdx.toNat ≤ s.mOff.toNat) ∧
    (0 ≤ copySource s → (copySource s).toNat = s.outIdx.toNat - (s.mOff.toNat + 1) ∧
      (copySource s).toNat < s.outIdx.toNat) ∧
    (s.outIdx < s.outCap → (s.outIdx + 1).toNat = s.outIdx.toNat + 1 ∧ s.outIdx + 1 ≤ s.outCap) ∧
    (s.cnt ≠ 0 → (s.cnt - 1).toNat = s.cnt.toNat - 1)

/-- The frame of the copy step (R105): only the output byte at `out_idx`, `out_idx`, `cnt`, `phase` and `cause` can
change. -/
def Obligations.CopyFrame : Prop :=
  ∀ s t : State, s.host = [] → s.phase = .copy → step s = .next t →
    (∀ a, a ≠ s.outIdx.toNat → outByte t a = outByte s a) ∧ (∀ a, inByte t a = inByte s a) ∧
    t = { s with outMem := t.outMem, outIdx := t.outIdx, cnt := t.cnt, phase := t.phase, cause := t.cause }

/-- R41, R109: while a copy goes on, its source moves forward with the cursor by one, the byte just written reads as
the byte copied, and the source, once inside the output, stays inside. -/
def Obligations.CopySourceFollowsTheCursor : Prop :=
  ∀ s t : State, s.host = [] → s.phase = .copy → s.cnt ≠ 0 → step s = .next t → t.phase = .copy →
    0 ≤ copySource s ∧ t.outIdx.toNat = s.outIdx.toNat + 1 ∧ copySource t = copySource s + 1 ∧
    outByte t s.outIdx.toNat = outByte s (copySource s).toNat

/-- R110: the closed form of a whole copy, over the engine's own steps. -/
def Obligations.CopyClosedForm : Prop :=
  ∀ s : State, s.host = [] → s.phase = .copy → s.cnt ≠ 0 →
    (s.outIdx.toNat < s.mOff.toNat + 1 → step s = .next { s with cause := .srcUnderflow, phase := .halted }) ∧
    (s.mOff.toNat + 1 ≤ s.outIdx.toNat →
      ∃ t, runSteps (min s.cnt.toNat (s.outCap.toNat - s.outIdx.toNat)) s = .next t ∧
        t.outIdx.toNat = s.outIdx.toNat + min s.cnt.toNat (s.outCap.toNat - s.outIdx.toNat) ∧
        (∀ i, i < min s.cnt.toNat (s.outCap.toNat - s.outIdx.toNat) →
          outByte t (s.outIdx.toNat + i) =
            outByte s (s.outIdx.toNat - (s.mOff.toNat + 1) + i % (s.mOff.toNat + 1))) ∧
        (∀ a, a < s.outIdx.toNat ∨
            s.outIdx.toNat + min s.cnt.toNat (s.outCap.toNat - s.outIdx.toNat) ≤ a →
          outByte t a = outByte s a) ∧
        (s.cnt.toNat ≤ s.outCap.toNat - s.outIdx.toNat → t.phase = .run) ∧
        (s.outCap.toNat - s.outIdx.toNat < s.cnt.toNat →
          step t = .next { t with cause := .outFullCopy, phase := .halted }))

/-! Halts. -/

/-- R131: a step of the engine that halts does nothing but record the cause and enter HALTED; what the same step
did before it (advancing `bit_pos`, a refill) stays done, and nothing is written to `OUT`. -/
def Obligations.HaltChangesNothingElse : Prop :=
  ∀ s t : State, s.host = [] → s.phase = .run ∨ s.phase = .copy → step s = .next t → t.phase = .halted →
    (∃ c u, c ≠ .none ∧ (u = s ∨ u = advanceBit s ∨ u = tokenState s) ∧
      t = { u with cause := c, phase := .halted }) ∧
    t.outIdx = s.outIdx ∧ t.outMem = s.outMem ∧ t.mLen = s.mLen ∧ t.mOff = s.mOff ∧ t.cnt = s.cnt

/-- R135: the only transitions out of HALTED are START, to a new decode from `in_idx = 0`, and hardware reset, to
IDLE. -/
def Obligations.HaltedIsTerminal : Prop :=
  ∀ s t : State, s.phase = .halted → step s = .next t → t.phase ≠ .halted →
    (s.host.head? = some (.writeStart 1) ∧ t.phase = .run ∧ t.inIdx = 0 ∧ t.outIdx = 0) ∨
    (s.host.head? = some .hardReset ∧ t.phase = .idle)

/-- R118, R149: in HALTED the result stays as it is, and readable, through every step but START, hardware reset and
the host's own stores to `OUT`. -/
def Obligations.ResultStaysUntilStart : Prop :=
  ∀ s t : State, s.phase = .halted → step s = .next t →
    s.host.head? ≠ some (.writeStart 1) → s.host.head? ≠ some .hardReset →
    t.phase = .halted ∧ t.outIdx = s.outIdx ∧ t.cause = s.cause ∧
    ((∀ a v, s.host.head? ≠ some (.storeOut a v)) → produced t = produced s)

/-- R18, R78: the phases an engine step can lead to. -/
def Obligations.EnginePhaseTransitions : Prop :=
  ∀ s t : State, s.host = [] → step s = .next t →
    (s.phase = .idle → t = s) ∧ (s.phase = .halted → t = s) ∧
    (s.phase = .run → t.phase = .run ∨ t.phase = .copy ∨ t.phase = .halted) ∧
    (s.phase = .copy → (t.phase = .run ∧ t.cnt = 0) ∨ (t.phase = .copy ∧ t.cnt ≠ 0) ∨ t.phase = .halted)

/-- R126 (the spec's decision D14), R130: each cause is recorded only where its condition holds, and a halt always
has one. -/
def Obligations.EachCauseHasItsCondition : Prop :=
  ∀ s t : State, EngineInv s → s.host = [] → s.phase = .run ∨ s.phase = .copy → step s = .next t → t.phase = .halted →
    match t.cause with
    | .none => False
    | .outFull => s.phase = .run ∧ s.outCap ≤ s.outIdx
    | .inEmpty => s.phase = .run ∧ s.outIdx < s.outCap ∧ s.inLen ≤ s.inIdx
    | .refillShort => s.phase = .run ∧ t.bitPos = 31 ∧ 1 ≤ remaining s ∧ remaining s ≤ 3
    | .litShort => s.phase = .run ∧ ¬ controlSet t ∧ remaining t = 0
    | .tokenShort => s.phase = .run ∧ controlSet t ∧ (remaining t < 2 ∨ remaining t < refSize (nextByte t 0))
    | .srcUnderflow => s.phase = .copy ∧ s.outIdx.toNat ≤ s.mOff.toNat
    | .outFullCopy => s.phase = .copy ∧ s.outCap ≤ s.outIdx

/-- R128: a halt is complete, `out_idx = out_cap`, exactly for the causes 1 and 7. -/
def Obligations.CompleteExactlyWhenOutputFilled : Prop :=
  ∀ s t : State, EngineInv s → s.host = [] → s.phase = .run ∨ s.phase = .copy → step s = .next t → t.phase = .halted →
    ((t.cause = .outFull ∨ t.cause = .outFullCopy) ↔ t.outIdx = t.outCap)

/-! Invariants. -/

/-- Every step of engine or host keeps the invariant: canonical memories, the bounds of a decode under way, what the
latches hold in a copy, a cause exactly in HALTED (R14, R16, R19, R21 to R23, R107, R109). -/
def Obligations.StepKeepsInvariant : Prop :=
  ∀ s t : State, EngineInv s → step s = .next t → EngineInv t

/-- The invariant holds in the state after reset. -/
def Obligations.ResetMeetsInvariant : Prop := EngineInv State.reset

/-- R21, R22, R23: from START to the halt, the halt included, no index passes its limit and every byte below
`out_idx` has been written. -/
def Obligations.IndicesStayInBounds : Prop :=
  ∀ s t : State, EngineInv s → s.host = [] → s.phase = .run ∨ s.phase = .copy → step s = .next t →
    t.inIdx ≤ t.inLen ∧ t.outIdx ≤ t.outCap ∧ s.inIdx ≤ t.inIdx ∧ s.outIdx ≤ t.outIdx ∧
    ∀ a, a < t.outIdx.toNat → (Memory.read t.outMem a).isSome = true

/-- R11, R23, R35: a step of the engine leaves `out_idx` or advances it by one, having written then the byte at the
old cursor; no other output byte changes, so a byte once written below the cursor stays. -/
def Obligations.OutputIsWrittenOnceInOrder : Prop :=
  ∀ s t : State, s.host = [] → step s = .next t →
    (t.outIdx = s.outIdx ∧ t.outMem = s.outMem) ∨
    (t.outIdx.toNat = s.outIdx.toNat + 1 ∧ s.outIdx < s.outCap ∧
      (∃ v, t.outMem = Memory.write s.outMem s.outIdx.toNat v) ∧
      ∀ a, a ≠ s.outIdx.toNat → outByte t a = outByte s a)

/-- R43, R116: the engine changes neither the input memory nor the parameters, nor what belongs to the host. -/
def Obligations.EngineLeavesItsInputAlone : Prop :=
  ∀ s t : State, s.host = [] → step s = .next t → sameSurroundings s t

/-- R157: a token step that does not halt consumes input, by one to eight bytes, and writes a byte or enters the copy; a
copy step that does not halt writes a byte and consumes none. -/
def Obligations.EveryStepMakesProgress : Prop :=
  ∀ s t : State, s.host = [] → step s = .next t → t.phase ≠ .halted →
    (s.phase = .run →
      s.inIdx.toNat + 1 ≤ t.inIdx.toNat ∧ t.inIdx.toNat ≤ s.inIdx.toNat + 8 ∧
      ((t.phase = .run ∧ t.outIdx.toNat = s.outIdx.toNat + 1) ∨ (t.phase = .copy ∧ t.outIdx = s.outIdx))) ∧
    (s.phase = .copy → s.cnt ≠ 0 →
      t.outIdx.toNat = s.outIdx.toNat + 1 ∧ t.inIdx = s.inIdx ∧ t.cnt.toNat + 1 = s.cnt.toNat)

/-- R14, R15, R76: the cadence of the control bits. A token step that does not halt moves `bit_pos` on by one modulo 31
and loads `ind` exactly when it starts from 30; a copy step touches neither. -/
def Obligations.ControlBitsCycleThroughThirtyOne : Prop :=
  ∀ s t : State, s.host = [] → step s = .next t → t.phase ≠ .halted → s.bitPos.toNat ≤ 30 →
    (s.phase = .run → t.bitPos.toNat = (s.bitPos.toNat + 1) % 31 ∧
      (s.bitPos ≠ 30 → t.ind = s.ind) ∧
      (s.bitPos = 30 → t.ind.toNat =
        (nextByte s 0 ||| nextByte s 1 <<< 8 ||| nextByte s 2 <<< 16 ||| nextByte s 3 <<< 24))) ∧
    (s.phase = .copy → t.bitPos = s.bitPos ∧ t.ind = s.ind)

/-! Whole decodes. -/

/-- R115, R148 (the spec's decision D9): the host's set-up, from IDLE or HALTED, launches the decode of what it
stored. -/
def Obligations.SetUpLaunchesTheDecode : Prop :=
  ∀ (payload : List Byte) (cap : Word) (s : State), payload.length < 2 ^ 32 →
    s.phase = .idle ∨ s.phase = .halted → s.host = setUpEvents payload cap →
    ∃ t, runSteps (payload.length + 3) s = .next t ∧ Launched payload cap t

/-- R157, R119: every decode ends in HALTED within the bound on its steps, and stays there. -/
def Obligations.EveryDecodeTerminates : Prop :=
  ∀ (payload : List Byte) (cap : Word) (s : State), Launched payload cap s →
    ∃ t, runSteps (stepBound payload.length cap.toNat) s = .next t ∧ t.phase = .halted ∧ step t = .next t

/-- R70, R29: the engine, stepping over its registers and memories, computes the reference algorithm: the same output
bytes, and the same final `cause`, `in_idx` and `bit_pos`, from any launched state, whatever `OUT`, `ind` and the latches
held. -/
def Obligations.EngineComputesTheReferenceDecode : Prop :=
  ∀ (payload : List Byte) (cap : Word) (s : State), Launched payload cap s →
    ∃ t, decodesTo payload cap s t ∧ produced t = (refDecode payload cap.toNat).out ∧
      t.cause = (refDecode payload cap.toNat).cause ∧ t.inIdx.toNat = (refDecode payload cap.toNat).inIdx ∧
      t.bitPos.toNat = (refDecode payload cap.toNat).bitPos

/-- R159: the empty results: capacity 0, at most four payload bytes, or a match as the first token. -/
def Obligations.EmptyResults : Prop :=
  ∀ (payload : List Byte) (cap : Word) (s : State), Launched payload cap s →
    cap = 0 ∨ payload.length ≤ 4 ∨ (∃ b0, payload[0]? = some b0 ∧ b0.toNat % 2 = 1) →
    ∃ t, decodesTo payload cap s t ∧ produced t = []

/-- R160: decoding a truncated payload gives a prefix of what decoding the whole gives. -/
def Obligations.TruncationGivesAPrefix : Prop :=
  ∀ (payload : List Byte) (k : Nat) (cap : Word) (s s' : State),
    Launched payload cap s → Launched (payload.take k) cap s' →
    ∃ t t', decodesTo payload cap s t ∧ decodesTo (payload.take k) cap s' t' ∧ produced t' <+: produced t

/-- R161: a smaller capacity gives the first bytes of what the larger one gives, exactly as many as fit. -/
def Obligations.CapacityCutsTheResult : Prop :=
  ∀ (payload : List Byte) (cap cap' : Word) (s s' : State), cap' ≤ cap →
    Launched payload cap s → Launched payload cap' s' →
    ∃ t t', decodesTo payload cap s t ∧ decodesTo payload cap' s' t' ∧
      produced t' = (produced t).take cap'.toNat

/-- R28, R163: the result depends on the payload and the capacity alone, not on what the registers and `OUT` held
before. -/
def Obligations.DecodeIsAFunctionOfItsInput : Prop :=
  ∀ (payload : List Byte) (cap : Word) (s s' : State), Launched payload cap s → Launched payload cap s' →
    ∃ t t', decodesTo payload cap s t ∧ decodesTo payload cap s' t' ∧ produced t = produced t'

/-! Encodings. -/

/-- R63 against R60: decoding the bytes of a well-formed element, whatever follows them, gives that element back;
for `M1` a byte must follow, since the lookahead counts it (R90). -/
def Obligations.DecodeOfEncode : Prop :=
  ∀ (i : Instr) (rest : List Byte), i.wellFormed = true →
    (i.slot = .matchToken → 2 ≤ (encode i ++ rest).length) →
    decode i.slot (encode i ++ rest) = .element i

/-- The other direction: an element the decoder gives belongs to the position asked for, is well-formed (so its
fields are in the ranges of R60 and R100), and encodes to the very bytes it was read from. -/
def Obligations.EncodeOfDecode : Prop :=
  ∀ (slot : Slot) (bytes : List Byte) (i : Instr), decode slot bytes = .element i →
    i.slot = slot ∧ i.wellFormed = true ∧ encode i = bytes.take i.size ∧ i.size ≤ bytes.length

/-- R61: no encoding is illegal: in every position any four bytes give an element. -/
def Obligations.FourBytesAlwaysDecode : Prop :=
  ∀ (slot : Slot) (b0 b1 b2 b3 : Byte) (rest : List Byte), ∃ i, decode slot (b0 :: b1 :: b2 :: b3 :: rest) = .element i

/-- R62: bit 31 of the indicator word is never tested; bits 2:0 of `b1` of `M4` have no effect; bits 2:0 of `b3` enter
length and offset alike. -/
def Obligations.IgnoredAndSharedBits : Prop :=
  (∀ s : State, s.bitPos.toNat ≤ 30 →
    tokenSlot { s with ind := s.ind ^^^ 0x80000000#32 } = tokenSlot s) ∧
  (∀ (b0 b1 b1' b2 b3 : Byte) (s : State), b0.toNat &&& 7 = 7 → b1.toNat >>> 3 = b1'.toNat >>> 3 →
    ∃ i i', decode .matchToken [b0, b1, b2, b3] = .element i ∧ decode .matchToken [b0, b1', b2, b3] = .element i' ∧
      exec i s = exec i' s) ∧
  (∀ (bytes : List Byte) (len : BitVec 9) (off : BitVec 21) (x : BitVec 3),
    decode .matchToken bytes = .element (.m4 len off x) → (len.toNat - 3) >>> 5 = (off.toNat >>> 13) &&& 7)

/-- Words of every element kind, written out from R52 to R58, decode to what they stand for. -/
def Obligations.SampleWordsDecode : Prop :=
  decode .indicator [0x02, 0x00, 0x00, 0x80] = .element (.ind 0x80000002) ∧
  decode .literal [0xFF] = .element (.lit 0xFF) ∧
  decode .matchToken [0xFC, 0xFF] = .element (.m1 63) ∧
  decode .matchToken [0x7E, 0x00] = .element (.m2 18 1) ∧
  decode .matchToken [0x01, 0x01] = .element (.m3 64) ∧
  decode .matchToken [0x17, 0x07, 0x00, 0x00] = .element (.m4 5 0 7) ∧
  decode .matchToken [0x07, 0x00, 0x00, 0x01] = .element (.m4 35 8192 0) ∧
  decode .matchToken [0x03, 0x34, 0x12] = .element (.m5 3 4660)
end

