-- ==== Sys2Proof/Laws/Fields.lean ====
section
/-! SUPPORT. The field formulas as arithmetic on the bytes' values, where each OR of disjoint fields is a sum (R60), and the dispatch
tests as remainders (R61). -/

namespace Sys2Proof

theorem byte_and_three (b : Byte) : (b &&& 3).toNat = b.toNat % 4 := by
  have h := Nat.and_two_pow_sub_one_eq_mod b.toNat 2
  simpa [BitVec.toNat_and] using h

theorem byte_and_seven (b : Byte) : (b &&& 7).toNat = b.toNat % 8 := by
  have h := Nat.and_two_pow_sub_one_eq_mod b.toNat 3
  simpa [BitVec.toNat_and] using h

theorem m1Off_toNat (b0 : Byte) : (m1Off b0).toNat = b0.toNat / 4 := by
  have := b0.isLt
  simp [m1Off, Nat.shiftRight_eq_div_pow]
  omega

theorem m2Len_toNat (b0 : Byte) : (m2Len b0).toNat = b0.toNat / 4 % 16 + 3 := by
  have := b0.isLt
  have h := Nat.and_two_pow_sub_one_eq_mod (b0.toNat / 4) 4
  simp [m2Len, Nat.shiftRight_eq_div_pow] at h ⊢
  rw [Nat.mod_eq_of_lt (show b0.toNat < 512 by omega), h]
  omega

theorem m2Off_toNat (b0 b1 : Byte) : (m2Off b0 b1).toNat = b1.toNat * 4 + b0.toNat / 64 := by
  have h0 := b0.isLt
  have h1 := b1.isLt
  have e : b0.toNat / 64 < 2 ^ 2 := by omega
  have h := Nat.shiftLeft_add_eq_or_of_lt e b1.toNat
  simp [m2Off, Nat.shiftRight_eq_div_pow]
  rw [Nat.mod_eq_of_lt (show b0.toNat < 2097152 by omega), Nat.mod_eq_of_lt (show b1.toNat < 2097152 by omega),
    Nat.mod_eq_of_lt (show b1.toNat <<< 2 < 2097152 by rw [Nat.shiftLeft_eq]; omega), ← h, Nat.shiftLeft_eq]

theorem m3Off_toNat (b0 b1 : Byte) : (m3Off b0 b1).toNat = b1.toNat * 64 + b0.toNat / 4 := by
  have h0 := b0.isLt
  have h1 := b1.isLt
  have e : b0.toNat / 4 < 2 ^ 6 := by omega
  have h := Nat.shiftLeft_add_eq_or_of_lt e b1.toNat
  simp [m3Off, Nat.shiftRight_eq_div_pow]
  rw [Nat.mod_eq_of_lt (show b0.toNat < 2097152 by omega), Nat.mod_eq_of_lt (show b1.toNat < 2097152 by omega),
    Nat.mod_eq_of_lt (show b1.toNat <<< 6 < 2097152 by rw [Nat.shiftLeft_eq]; omega), ← h, Nat.shiftLeft_eq]

theorem m4Len_toNat (b0 b3 : Byte) : (m4Len b0 b3).toNat = b3.toNat % 8 * 32 + b0.toNat / 8 + 3 := by
  have h0 := b0.isLt
  have h3 := b3.isLt
  have e : b0.toNat / 8 < 2 ^ 5 := by omega
  have h := Nat.shiftLeft_add_eq_or_of_lt e (b3.toNat % 8)
  have h7 := Nat.and_two_pow_sub_one_eq_mod b3.toNat 3
  simp [m4Len, Nat.shiftRight_eq_div_pow] at h7 ⊢
  rw [Nat.mod_eq_of_lt (show b0.toNat < 512 by omega), Nat.mod_eq_of_lt (show b3.toNat < 512 by omega), h7,
    Nat.mod_eq_of_lt (show (b3.toNat % 8) <<< 5 < 512 by rw [Nat.shiftLeft_eq]; omega), ← h, Nat.shiftLeft_eq]
  omega

theorem m4Off_toNat (b1 b2 b3 : Byte) :
    (m4Off b1 b2 b3).toNat = b3.toNat * 8192 + b2.toNat * 32 + b1.toNat / 8 := by
  have h1 := b1.isLt
  have h2 := b2.isLt
  have h3 := b3.isLt
  have e1 : b1.toNat / 8 < 2 ^ 5 := by omega
  have e2 : b2.toNat <<< 5 < 2 ^ 13 := by rw [Nat.shiftLeft_eq]; omega
  have ha := Nat.shiftLeft_add_eq_or_of_lt e2 b3.toNat
  have hb := Nat.shiftLeft_add_eq_or_of_lt e1 (b3.toNat * 256 + b2.toNat)
  simp [m4Off, Nat.shiftRight_eq_div_pow]
  rw [Nat.mod_eq_of_lt (show b1.toNat < 2097152 by omega), Nat.mod_eq_of_lt (show b2.toNat < 2097152 by omega),
    Nat.mod_eq_of_lt (show b3.toNat < 2097152 by omega),
    Nat.mod_eq_of_lt (show b3.toNat <<< 13 < 2097152 by rw [Nat.shiftLeft_eq]; omega),
    Nat.mod_eq_of_lt (show b2.toNat <<< 5 < 2097152 by rw [Nat.shiftLeft_eq]; omega), ← ha]
  have hc : b3.toNat <<< 13 + b2.toNat <<< 5 = (b3.toNat * 256 + b2.toNat) <<< 5 := by
    simp only [Nat.shiftLeft_eq]; omega
  rw [hc, ← hb]
  simp only [Nat.shiftLeft_eq]
  omega

theorem m5Len_toNat (b0 : Byte) : (m5Len b0).toNat = b0.toNat / 8 + 3 := by
  have := b0.isLt
  simp [m5Len, Nat.shiftRight_eq_div_pow]
  omega

theorem m5Off_toNat (b1 b2 : Byte) : (m5Off b1 b2).toNat = b2.toNat * 256 + b1.toNat := by
  have h1 := b1.isLt
  have h2 := b2.isLt
  have h := Nat.shiftLeft_add_eq_or_of_lt (show b1.toNat < 2 ^ 8 by omega) b2.toNat
  simp [m5Off]
  rw [Nat.mod_eq_of_lt (show b1.toNat < 2097152 by omega), Nat.mod_eq_of_lt (show b2.toNat < 2097152 by omega),
    Nat.mod_eq_of_lt (show b2.toNat <<< 8 < 2097152 by rw [Nat.shiftLeft_eq]; omega), ← h, Nat.shiftLeft_eq]

theorem indWord_toNat (w0 w1 w2 w3 : Byte) :
    (indWord w0 w1 w2 w3).toNat = w0.toNat + w1.toNat * 2 ^ 8 + w2.toNat * 2 ^ 16 + w3.toNat * 2 ^ 24 := by
  have h0 := w0.isLt
  have h1 := w1.isLt
  have h2 := w2.isLt
  have h3 := w3.isLt
  have ha := Nat.shiftLeft_add_eq_or_of_lt (show w0.toNat < 2 ^ 8 by omega) w1.toNat
  have hb := Nat.shiftLeft_add_eq_or_of_lt (show w1.toNat * 2 ^ 8 + w0.toNat < 2 ^ 16 by omega) w2.toNat
  have hc := Nat.shiftLeft_add_eq_or_of_lt
    (show w2.toNat * 2 ^ 16 + (w1.toNat * 2 ^ 8 + w0.toNat) < 2 ^ 24 by omega) w3.toNat
  simp only [Nat.shiftLeft_eq] at ha hb hc
  simp [indWord, Nat.shiftLeft_eq] at ha hb hc ⊢
  rw [Nat.mod_eq_of_lt (show w0.toNat < 4294967296 by omega), Nat.mod_eq_of_lt (show w1.toNat * 256 < 4294967296 by omega),
    Nat.mod_eq_of_lt (show w2.toNat * 65536 < 4294967296 by omega),
    Nat.mod_eq_of_lt (show w3.toNat * 16777216 < 4294967296 by omega),
    Nat.or_comm w0.toNat, ← ha, Nat.or_comm _ (w2.toNat * 65536), ← hb, Nat.or_comm _ (w3.toNat * 16777216), ← hc]
  ring

end Sys2Proof
end

