-- ==== Sys2Proof/Laws/Memory.lean ====
section
/-! SUPPORT. The laws of the byte memories: read after write, and that every operation keeps the canonical form. -/

namespace Sys2Proof.Machine

@[simp] theorem memory_read_nil (a : Nat) : Memory.read [] a = none := rfl

@[simp] theorem memory_read_write_same (m : Memory) (a : Nat) (v : Byte) :
    Memory.read (Memory.write m a v) a = some v := by
  induction m with
  | nil => simp [Memory.write, Memory.read]
  | cons e rest ih =>
    obtain ⟨b, u⟩ := e
    simp only [Memory.write]
    split
    · simp [Memory.read]
    · split
      · simp [Memory.read]
      · simp [Memory.read, *]

theorem memory_read_write_other (m : Memory) {a c : Nat} (v : Byte) (h : c ≠ a) :
    Memory.read (Memory.write m a v) c = Memory.read m c := by
  induction m with
  | nil => simp [Memory.write, Memory.read, h]
  | cons e rest ih =>
    obtain ⟨b, u⟩ := e
    simp only [Memory.write]
    split
    · simp [Memory.read, h]
    · split
      · subst_vars; simp [Memory.read, h]
      · simp [Memory.read, ih]

/-- Read after write, in one equation. -/
theorem memory_read_write (m : Memory) (a c : Nat) (v : Byte) :
    Memory.read (Memory.write m a v) c = if c = a then some v else Memory.read m c := by
  split
  · subst_vars; simp
  · exact memory_read_write_other m v ‹_›

theorem memory_wfAbove_write {lo a : Nat} {m : Memory} (v : Byte) (hm : Memory.wfAbove lo m = true)
    (ha : lo < a) : Memory.wfAbove lo (Memory.write m a v) = true := by
  induction m generalizing lo with
  | nil => simp [Memory.write, Memory.wfAbove, ha]
  | cons e rest ih =>
    obtain ⟨b, u⟩ := e
    simp only [Memory.wfAbove, Bool.and_eq_true, decide_eq_true_eq] at hm
    simp only [Memory.write]
    split
    · simp [Memory.wfAbove, *]
    · split
      · subst_vars; simp [Memory.wfAbove, *]
      · simp only [Memory.wfAbove, Bool.and_eq_true, decide_eq_true_eq]
        exact ⟨hm.1, ih hm.2 (by omega)⟩

/-- A write keeps the canonical form. -/
theorem memory_wf_write {m : Memory} (a : Nat) (v : Byte) (hm : Memory.wf m = true) :
    Memory.wf (Memory.write m a v) = true := by
  cases m with
  | nil => simp [Memory.write, Memory.wf, Memory.wfAbove]
  | cons e rest =>
    obtain ⟨b, u⟩ := e
    simp only [Memory.wf] at hm
    simp only [Memory.write]
    split
    · simp [Memory.wf, Memory.wfAbove, *]
    · split
      · subst_vars; simpa [Memory.wf] using hm
      · simpa [Memory.wf] using memory_wfAbove_write v hm (by omega)

@[simp] theorem reset_inMem_wf : Memory.wf State.reset.inMem = true := rfl

@[simp] theorem reset_outMem_wf : Memory.wf State.reset.outMem = true := rfl

/-- An output byte depends only on the output memory and the reset count. -/
theorem outByte_congr {s t : State} (hm : t.outMem = s.outMem) (hr : t.resets = s.resets) (a : Nat) :
    outByte t a = outByte s a := by
  simp [outByte, hm, hr]

/-- An input byte depends only on the input memory and the reset count. -/
theorem inByte_congr {s t : State} (hm : t.inMem = s.inMem) (hr : t.resets = s.resets) (a : Nat) :
    inByte t a = inByte s a := by
  simp [inByte, hm, hr]

/-- What `OUT` reads as after one byte is emitted. -/
theorem outByte_emit (v : Byte) (s : State) (a : Nat) :
    outByte (emit v s) a = if a = s.outIdx.toNat then v else outByte s a := by
  simp only [outByte, emit, memory_read_write]
  by_cases h : a = s.outIdx.toNat <;> simp [h]

end Sys2Proof.Machine
end

