-- ==== Sys2Proof/Laws/State.lean ====
section
/-! SUPPORT. What each named update does to each field of State, one lemma for each pair, all true by computation. -/

namespace Sys2Proof.Machine

/-! `raiseHalt`. -/

@[simp] theorem raiseHalt_inLen (c : Cause) (s : State) : (raiseHalt c s).inLen = s.inLen := rfl
@[simp] theorem raiseHalt_outCap (c : Cause) (s : State) : (raiseHalt c s).outCap = s.outCap := rfl
@[simp] theorem raiseHalt_outIdx (c : Cause) (s : State) : (raiseHalt c s).outIdx = s.outIdx := rfl
@[simp] theorem raiseHalt_inIdx (c : Cause) (s : State) : (raiseHalt c s).inIdx = s.inIdx := rfl
@[simp] theorem raiseHalt_bitPos (c : Cause) (s : State) : (raiseHalt c s).bitPos = s.bitPos := rfl
@[simp] theorem raiseHalt_ind (c : Cause) (s : State) : (raiseHalt c s).ind = s.ind := rfl
@[simp] theorem raiseHalt_mLen (c : Cause) (s : State) : (raiseHalt c s).mLen = s.mLen := rfl
@[simp] theorem raiseHalt_mOff (c : Cause) (s : State) : (raiseHalt c s).mOff = s.mOff := rfl
@[simp] theorem raiseHalt_cnt (c : Cause) (s : State) : (raiseHalt c s).cnt = s.cnt := rfl
@[simp] theorem raiseHalt_phase (c : Cause) (s : State) : (raiseHalt c s).phase = .halted := rfl
@[simp] theorem raiseHalt_cause (c : Cause) (s : State) : (raiseHalt c s).cause = c := rfl
@[simp] theorem raiseHalt_inMem (c : Cause) (s : State) : (raiseHalt c s).inMem = s.inMem := rfl
@[simp] theorem raiseHalt_outMem (c : Cause) (s : State) : (raiseHalt c s).outMem = s.outMem := rfl
@[simp] theorem raiseHalt_host (c : Cause) (s : State) : (raiseHalt c s).host = s.host := rfl
@[simp] theorem raiseHalt_hostData (c : Cause) (s : State) : (raiseHalt c s).hostData = s.hostData := rfl
@[simp] theorem raiseHalt_resets (c : Cause) (s : State) : (raiseHalt c s).resets = s.resets := rfl
@[simp] theorem raiseHalt_draws (c : Cause) (s : State) : (raiseHalt c s).draws = s.draws := rfl

/-! `consume`. -/

@[simp] theorem consume_inLen (k : Nat) (s : State) : (consume k s).inLen = s.inLen := rfl
@[simp] theorem consume_outCap (k : Nat) (s : State) : (consume k s).outCap = s.outCap := rfl
@[simp] theorem consume_outIdx (k : Nat) (s : State) : (consume k s).outIdx = s.outIdx := rfl
@[simp] theorem consume_inIdx (k : Nat) (s : State) : (consume k s).inIdx = s.inIdx + BitVec.ofNat 32 k := rfl
@[simp] theorem consume_bitPos (k : Nat) (s : State) : (consume k s).bitPos = s.bitPos := rfl
@[simp] theorem consume_ind (k : Nat) (s : State) : (consume k s).ind = s.ind := rfl
@[simp] theorem consume_mLen (k : Nat) (s : State) : (consume k s).mLen = s.mLen := rfl
@[simp] theorem consume_mOff (k : Nat) (s : State) : (consume k s).mOff = s.mOff := rfl
@[simp] theorem consume_cnt (k : Nat) (s : State) : (consume k s).cnt = s.cnt := rfl
@[simp] theorem consume_phase (k : Nat) (s : State) : (consume k s).phase = s.phase := rfl
@[simp] theorem consume_cause (k : Nat) (s : State) : (consume k s).cause = s.cause := rfl
@[simp] theorem consume_inMem (k : Nat) (s : State) : (consume k s).inMem = s.inMem := rfl
@[simp] theorem consume_outMem (k : Nat) (s : State) : (consume k s).outMem = s.outMem := rfl
@[simp] theorem consume_host (k : Nat) (s : State) : (consume k s).host = s.host := rfl
@[simp] theorem consume_hostData (k : Nat) (s : State) : (consume k s).hostData = s.hostData := rfl
@[simp] theorem consume_resets (k : Nat) (s : State) : (consume k s).resets = s.resets := rfl
@[simp] theorem consume_draws (k : Nat) (s : State) : (consume k s).draws = s.draws := rfl

/-! `advanceBit`. -/

@[simp] theorem advanceBit_inLen (s : State) : (advanceBit s).inLen = s.inLen := rfl
@[simp] theorem advanceBit_outCap (s : State) : (advanceBit s).outCap = s.outCap := rfl
@[simp] theorem advanceBit_outIdx (s : State) : (advanceBit s).outIdx = s.outIdx := rfl
@[simp] theorem advanceBit_inIdx (s : State) : (advanceBit s).inIdx = s.inIdx := rfl
@[simp] theorem advanceBit_bitPos (s : State) : (advanceBit s).bitPos = s.bitPos + 1 := rfl
@[simp] theorem advanceBit_ind (s : State) : (advanceBit s).ind = s.ind := rfl
@[simp] theorem advanceBit_mLen (s : State) : (advanceBit s).mLen = s.mLen := rfl
@[simp] theorem advanceBit_mOff (s : State) : (advanceBit s).mOff = s.mOff := rfl
@[simp] theorem advanceBit_cnt (s : State) : (advanceBit s).cnt = s.cnt := rfl
@[simp] theorem advanceBit_phase (s : State) : (advanceBit s).phase = s.phase := rfl
@[simp] theorem advanceBit_cause (s : State) : (advanceBit s).cause = s.cause := rfl
@[simp] theorem advanceBit_inMem (s : State) : (advanceBit s).inMem = s.inMem := rfl
@[simp] theorem advanceBit_outMem (s : State) : (advanceBit s).outMem = s.outMem := rfl
@[simp] theorem advanceBit_host (s : State) : (advanceBit s).host = s.host := rfl
@[simp] theorem advanceBit_hostData (s : State) : (advanceBit s).hostData = s.hostData := rfl
@[simp] theorem advanceBit_resets (s : State) : (advanceBit s).resets = s.resets := rfl
@[simp] theorem advanceBit_draws (s : State) : (advanceBit s).draws = s.draws := rfl

/-! `loadIndicator`. -/

@[simp] theorem loadIndicator_inLen (w : Word) (s : State) : (loadIndicator w s).inLen = s.inLen := rfl
@[simp] theorem loadIndicator_outCap (w : Word) (s : State) : (loadIndicator w s).outCap = s.outCap := rfl
@[simp] theorem loadIndicator_outIdx (w : Word) (s : State) : (loadIndicator w s).outIdx = s.outIdx := rfl
@[simp] theorem loadIndicator_inIdx (w : Word) (s : State) : (loadIndicator w s).inIdx = s.inIdx := rfl
@[simp] theorem loadIndicator_bitPos (w : Word) (s : State) : (loadIndicator w s).bitPos = 0 := rfl
@[simp] theorem loadIndicator_ind (w : Word) (s : State) : (loadIndicator w s).ind = w := rfl
@[simp] theorem loadIndicator_mLen (w : Word) (s : State) : (loadIndicator w s).mLen = s.mLen := rfl
@[simp] theorem loadIndicator_mOff (w : Word) (s : State) : (loadIndicator w s).mOff = s.mOff := rfl
@[simp] theorem loadIndicator_cnt (w : Word) (s : State) : (loadIndicator w s).cnt = s.cnt := rfl
@[simp] theorem loadIndicator_phase (w : Word) (s : State) : (loadIndicator w s).phase = s.phase := rfl
@[simp] theorem loadIndicator_cause (w : Word) (s : State) : (loadIndicator w s).cause = s.cause := rfl
@[simp] theorem loadIndicator_inMem (w : Word) (s : State) : (loadIndicator w s).inMem = s.inMem := rfl
@[simp] theorem loadIndicator_outMem (w : Word) (s : State) : (loadIndicator w s).outMem = s.outMem := rfl
@[simp] theorem loadIndicator_host (w : Word) (s : State) : (loadIndicator w s).host = s.host := rfl
@[simp] theorem loadIndicator_hostData (w : Word) (s : State) : (loadIndicator w s).hostData = s.hostData := rfl
@[simp] theorem loadIndicator_resets (w : Word) (s : State) : (loadIndicator w s).resets = s.resets := rfl
@[simp] theorem loadIndicator_draws (w : Word) (s : State) : (loadIndicator w s).draws = s.draws := rfl

/-! `latchMatch`. -/

@[simp] theorem latchMatch_inLen (len : BitVec 9) (off : BitVec 21) (s : State) : (latchMatch len off s).inLen = s.inLen := rfl
@[simp] theorem latchMatch_outCap (len : BitVec 9) (off : BitVec 21) (s : State) : (latchMatch len off s).outCap = s.outCap := rfl
@[simp] theorem latchMatch_outIdx (len : BitVec 9) (off : BitVec 21) (s : State) : (latchMatch len off s).outIdx = s.outIdx := rfl
@[simp] theorem latchMatch_inIdx (len : BitVec 9) (off : BitVec 21) (s : State) : (latchMatch len off s).inIdx = s.inIdx := rfl
@[simp] theorem latchMatch_bitPos (len : BitVec 9) (off : BitVec 21) (s : State) : (latchMatch len off s).bitPos = s.bitPos := rfl
@[simp] theorem latchMatch_ind (len : BitVec 9) (off : BitVec 21) (s : State) : (latchMatch len off s).ind = s.ind := rfl
@[simp] theorem latchMatch_mLen (len : BitVec 9) (off : BitVec 21) (s : State) : (latchMatch len off s).mLen = len := rfl
@[simp] theorem latchMatch_mOff (len : BitVec 9) (off : BitVec 21) (s : State) : (latchMatch len off s).mOff = off := rfl
@[simp] theorem latchMatch_cnt (len : BitVec 9) (off : BitVec 21) (s : State) : (latchMatch len off s).cnt = len := rfl
@[simp] theorem latchMatch_phase (len : BitVec 9) (off : BitVec 21) (s : State) : (latchMatch len off s).phase = .copy := rfl
@[simp] theorem latchMatch_cause (len : BitVec 9) (off : BitVec 21) (s : State) : (latchMatch len off s).cause = s.cause := rfl
@[simp] theorem latchMatch_inMem (len : BitVec 9) (off : BitVec 21) (s : State) : (latchMatch len off s).inMem = s.inMem := rfl
@[simp] theorem latchMatch_outMem (len : BitVec 9) (off : BitVec 21) (s : State) : (latchMatch len off s).outMem = s.outMem := rfl
@[simp] theorem latchMatch_host (len : BitVec 9) (off : BitVec 21) (s : State) : (latchMatch len off s).host = s.host := rfl
@[simp] theorem latchMatch_hostData (len : BitVec 9) (off : BitVec 21) (s : State) : (latchMatch len off s).hostData = s.hostData := rfl
@[simp] theorem latchMatch_resets (len : BitVec 9) (off : BitVec 21) (s : State) : (latchMatch len off s).resets = s.resets := rfl
@[simp] theorem latchMatch_draws (len : BitVec 9) (off : BitVec 21) (s : State) : (latchMatch len off s).draws = s.draws := rfl

/-! `emit`. -/

@[simp] theorem emit_inLen (v : Byte) (s : State) : (emit v s).inLen = s.inLen := rfl
@[simp] theorem emit_outCap (v : Byte) (s : State) : (emit v s).outCap = s.outCap := rfl
@[simp] theorem emit_outIdx (v : Byte) (s : State) : (emit v s).outIdx = s.outIdx + 1 := rfl
@[simp] theorem emit_inIdx (v : Byte) (s : State) : (emit v s).inIdx = s.inIdx := rfl
@[simp] theorem emit_bitPos (v : Byte) (s : State) : (emit v s).bitPos = s.bitPos := rfl
@[simp] theorem emit_ind (v : Byte) (s : State) : (emit v s).ind = s.ind := rfl
@[simp] theorem emit_mLen (v : Byte) (s : State) : (emit v s).mLen = s.mLen := rfl
@[simp] theorem emit_mOff (v : Byte) (s : State) : (emit v s).mOff = s.mOff := rfl
@[simp] theorem emit_cnt (v : Byte) (s : State) : (emit v s).cnt = s.cnt := rfl
@[simp] theorem emit_phase (v : Byte) (s : State) : (emit v s).phase = s.phase := rfl
@[simp] theorem emit_cause (v : Byte) (s : State) : (emit v s).cause = s.cause := rfl
@[simp] theorem emit_inMem (v : Byte) (s : State) : (emit v s).inMem = s.inMem := rfl
@[simp] theorem emit_outMem (v : Byte) (s : State) : (emit v s).outMem = Memory.write s.outMem s.outIdx.toNat v := rfl
@[simp] theorem emit_host (v : Byte) (s : State) : (emit v s).host = s.host := rfl
@[simp] theorem emit_hostData (v : Byte) (s : State) : (emit v s).hostData = s.hostData := rfl
@[simp] theorem emit_resets (v : Byte) (s : State) : (emit v s).resets = s.resets := rfl
@[simp] theorem emit_draws (v : Byte) (s : State) : (emit v s).draws = s.draws := rfl

/-! `beginDecode`. -/

@[simp] theorem beginDecode_inLen (s : State) : (beginDecode s).inLen = s.inLen := rfl
@[simp] theorem beginDecode_outCap (s : State) : (beginDecode s).outCap = s.outCap := rfl
@[simp] theorem beginDecode_outIdx (s : State) : (beginDecode s).outIdx = 0 := rfl
@[simp] theorem beginDecode_inIdx (s : State) : (beginDecode s).inIdx = 0 := rfl
@[simp] theorem beginDecode_bitPos (s : State) : (beginDecode s).bitPos = Config.bitPosInit := rfl
@[simp] theorem beginDecode_ind (s : State) : (beginDecode s).ind = s.ind := rfl
@[simp] theorem beginDecode_mLen (s : State) : (beginDecode s).mLen = s.mLen := rfl
@[simp] theorem beginDecode_mOff (s : State) : (beginDecode s).mOff = s.mOff := rfl
@[simp] theorem beginDecode_cnt (s : State) : (beginDecode s).cnt = s.cnt := rfl
@[simp] theorem beginDecode_phase (s : State) : (beginDecode s).phase = .run := rfl
@[simp] theorem beginDecode_cause (s : State) : (beginDecode s).cause = .none := rfl
@[simp] theorem beginDecode_inMem (s : State) : (beginDecode s).inMem = s.inMem := rfl
@[simp] theorem beginDecode_outMem (s : State) : (beginDecode s).outMem = s.outMem := rfl
@[simp] theorem beginDecode_host (s : State) : (beginDecode s).host = s.host := rfl
@[simp] theorem beginDecode_hostData (s : State) : (beginDecode s).hostData = s.hostData := rfl
@[simp] theorem beginDecode_resets (s : State) : (beginDecode s).resets = s.resets := rfl
@[simp] theorem beginDecode_draws (s : State) : (beginDecode s).draws = s.draws := rfl

/-! `countDown`. -/

@[simp] theorem countDown_inLen (s : State) : (countDown s).inLen = s.inLen := rfl
@[simp] theorem countDown_outCap (s : State) : (countDown s).outCap = s.outCap := rfl
@[simp] theorem countDown_outIdx (s : State) : (countDown s).outIdx = s.outIdx := rfl
@[simp] theorem countDown_inIdx (s : State) : (countDown s).inIdx = s.inIdx := rfl
@[simp] theorem countDown_bitPos (s : State) : (countDown s).bitPos = s.bitPos := rfl
@[simp] theorem countDown_ind (s : State) : (countDown s).ind = s.ind := rfl
@[simp] theorem countDown_mLen (s : State) : (countDown s).mLen = s.mLen := rfl
@[simp] theorem countDown_mOff (s : State) : (countDown s).mOff = s.mOff := rfl
@[simp] theorem countDown_cnt (s : State) : (countDown s).cnt = s.cnt - 1 := rfl
@[simp] theorem countDown_phase (s : State) : (countDown s).phase = if s.cnt - 1 = 0 then .run else s.phase := rfl
@[simp] theorem countDown_cause (s : State) : (countDown s).cause = s.cause := rfl
@[simp] theorem countDown_inMem (s : State) : (countDown s).inMem = s.inMem := rfl
@[simp] theorem countDown_outMem (s : State) : (countDown s).outMem = s.outMem := rfl
@[simp] theorem countDown_host (s : State) : (countDown s).host = s.host := rfl
@[simp] theorem countDown_hostData (s : State) : (countDown s).hostData = s.hostData := rfl
@[simp] theorem countDown_resets (s : State) : (countDown s).resets = s.resets := rfl
@[simp] theorem countDown_draws (s : State) : (countDown s).draws = s.draws := rfl

/-! `hardReset`. -/

@[simp] theorem hardReset_inLen (s : State) : (hardReset s).inLen = Config.resetInLen s.resets := rfl
@[simp] theorem hardReset_outCap (s : State) : (hardReset s).outCap = Config.resetOutCap s.resets := rfl
@[simp] theorem hardReset_outIdx (s : State) : (hardReset s).outIdx = Config.resetOutIdx s.resets := rfl
@[simp] theorem hardReset_inIdx (s : State) : (hardReset s).inIdx = Config.resetInIdx s.resets := rfl
@[simp] theorem hardReset_bitPos (s : State) : (hardReset s).bitPos = Config.resetBitPos s.resets := rfl
@[simp] theorem hardReset_ind (s : State) : (hardReset s).ind = Config.resetInd s.resets := rfl
@[simp] theorem hardReset_mLen (s : State) : (hardReset s).mLen = Config.resetMLen s.resets := rfl
@[simp] theorem hardReset_mOff (s : State) : (hardReset s).mOff = Config.resetMOff s.resets := rfl
@[simp] theorem hardReset_cnt (s : State) : (hardReset s).cnt = Config.resetCnt s.resets := rfl
@[simp] theorem hardReset_phase (s : State) : (hardReset s).phase = .idle := rfl
@[simp] theorem hardReset_cause (s : State) : (hardReset s).cause = .none := rfl
@[simp] theorem hardReset_inMem (s : State) : (hardReset s).inMem = [] := rfl
@[simp] theorem hardReset_outMem (s : State) : (hardReset s).outMem = [] := rfl
@[simp] theorem hardReset_host (s : State) : (hardReset s).host = s.host := rfl
@[simp] theorem hardReset_hostData (s : State) : (hardReset s).hostData = s.hostData := rfl
@[simp] theorem hardReset_resets (s : State) : (hardReset s).resets = s.resets + 1 := rfl
@[simp] theorem hardReset_draws (s : State) : (hardReset s).draws = s.draws := rfl

/-! `answer`. -/

@[simp] theorem answer_inLen (v : Word) (s : State) : (answer v s).inLen = s.inLen := rfl
@[simp] theorem answer_outCap (v : Word) (s : State) : (answer v s).outCap = s.outCap := rfl
@[simp] theorem answer_outIdx (v : Word) (s : State) : (answer v s).outIdx = s.outIdx := rfl
@[simp] theorem answer_inIdx (v : Word) (s : State) : (answer v s).inIdx = s.inIdx := rfl
@[simp] theorem answer_bitPos (v : Word) (s : State) : (answer v s).bitPos = s.bitPos := rfl
@[simp] theorem answer_ind (v : Word) (s : State) : (answer v s).ind = s.ind := rfl
@[simp] theorem answer_mLen (v : Word) (s : State) : (answer v s).mLen = s.mLen := rfl
@[simp] theorem answer_mOff (v : Word) (s : State) : (answer v s).mOff = s.mOff := rfl
@[simp] theorem answer_cnt (v : Word) (s : State) : (answer v s).cnt = s.cnt := rfl
@[simp] theorem answer_phase (v : Word) (s : State) : (answer v s).phase = s.phase := rfl
@[simp] theorem answer_cause (v : Word) (s : State) : (answer v s).cause = s.cause := rfl
@[simp] theorem answer_inMem (v : Word) (s : State) : (answer v s).inMem = s.inMem := rfl
@[simp] theorem answer_outMem (v : Word) (s : State) : (answer v s).outMem = s.outMem := rfl
@[simp] theorem answer_host (v : Word) (s : State) : (answer v s).host = s.host := rfl
@[simp] theorem answer_hostData (v : Word) (s : State) : (answer v s).hostData = some v := rfl
@[simp] theorem answer_resets (v : Word) (s : State) : (answer v s).resets = s.resets := rfl
@[simp] theorem answer_draws (v : Word) (s : State) : (answer v s).draws = s.draws := rfl

/-! `answerUnspecified`. -/

@[simp] theorem answerUnspecified_inLen (s : State) : (answerUnspecified s).inLen = s.inLen := rfl
@[simp] theorem answerUnspecified_outCap (s : State) : (answerUnspecified s).outCap = s.outCap := rfl
@[simp] theorem answerUnspecified_outIdx (s : State) : (answerUnspecified s).outIdx = s.outIdx := rfl
@[simp] theorem answerUnspecified_inIdx (s : State) : (answerUnspecified s).inIdx = s.inIdx := rfl
@[simp] theorem answerUnspecified_bitPos (s : State) : (answerUnspecified s).bitPos = s.bitPos := rfl
@[simp] theorem answerUnspecified_ind (s : State) : (answerUnspecified s).ind = s.ind := rfl
@[simp] theorem answerUnspecified_mLen (s : State) : (answerUnspecified s).mLen = s.mLen := rfl
@[simp] theorem answerUnspecified_mOff (s : State) : (answerUnspecified s).mOff = s.mOff := rfl
@[simp] theorem answerUnspecified_cnt (s : State) : (answerUnspecified s).cnt = s.cnt := rfl
@[simp] theorem answerUnspecified_phase (s : State) : (answerUnspecified s).phase = s.phase := rfl
@[simp] theorem answerUnspecified_cause (s : State) : (answerUnspecified s).cause = s.cause := rfl
@[simp] theorem answerUnspecified_inMem (s : State) : (answerUnspecified s).inMem = s.inMem := rfl
@[simp] theorem answerUnspecified_outMem (s : State) : (answerUnspecified s).outMem = s.outMem := rfl
@[simp] theorem answerUnspecified_host (s : State) : (answerUnspecified s).host = s.host := rfl
@[simp] theorem answerUnspecified_hostData (s : State) : (answerUnspecified s).hostData = some (Config.unspecifiedRead s.draws) := rfl
@[simp] theorem answerUnspecified_resets (s : State) : (answerUnspecified s).resets = s.resets := rfl
@[simp] theorem answerUnspecified_draws (s : State) : (answerUnspecified s).draws = s.draws + 1 := rfl

/-! `answerUnspecifiedByte`. -/

@[simp] theorem answerUnspecifiedByte_inLen (s : State) : (answerUnspecifiedByte s).inLen = s.inLen := rfl
@[simp] theorem answerUnspecifiedByte_outCap (s : State) : (answerUnspecifiedByte s).outCap = s.outCap := rfl
@[simp] theorem answerUnspecifiedByte_outIdx (s : State) : (answerUnspecifiedByte s).outIdx = s.outIdx := rfl
@[simp] theorem answerUnspecifiedByte_inIdx (s : State) : (answerUnspecifiedByte s).inIdx = s.inIdx := rfl
@[simp] theorem answerUnspecifiedByte_bitPos (s : State) : (answerUnspecifiedByte s).bitPos = s.bitPos := rfl
@[simp] theorem answerUnspecifiedByte_ind (s : State) : (answerUnspecifiedByte s).ind = s.ind := rfl
@[simp] theorem answerUnspecifiedByte_mLen (s : State) : (answerUnspecifiedByte s).mLen = s.mLen := rfl
@[simp] theorem answerUnspecifiedByte_mOff (s : State) : (answerUnspecifiedByte s).mOff = s.mOff := rfl
@[simp] theorem answerUnspecifiedByte_cnt (s : State) : (answerUnspecifiedByte s).cnt = s.cnt := rfl
@[simp] theorem answerUnspecifiedByte_phase (s : State) : (answerUnspecifiedByte s).phase = s.phase := rfl
@[simp] theorem answerUnspecifiedByte_cause (s : State) : (answerUnspecifiedByte s).cause = s.cause := rfl
@[simp] theorem answerUnspecifiedByte_inMem (s : State) : (answerUnspecifiedByte s).inMem = s.inMem := rfl
@[simp] theorem answerUnspecifiedByte_outMem (s : State) : (answerUnspecifiedByte s).outMem = s.outMem := rfl
@[simp] theorem answerUnspecifiedByte_host (s : State) : (answerUnspecifiedByte s).host = s.host := rfl
@[simp] theorem answerUnspecifiedByte_hostData (s : State) : (answerUnspecifiedByte s).hostData = some (((Config.unspecifiedRead s.draws).setWidth 8).setWidth 32) := rfl
@[simp] theorem answerUnspecifiedByte_resets (s : State) : (answerUnspecifiedByte s).resets = s.resets := rfl
@[simp] theorem answerUnspecifiedByte_draws (s : State) : (answerUnspecifiedByte s).draws = s.draws + 1 := rfl

end Sys2Proof.Machine
end

