-- ==== Sys2Proof/Laws/Steps.lean ====
section
/-! SUPPORT. What each shared operation and each level of the step can do, said once: the input window, the decoder, the beginning of a
match, the copy step, the token step and the engine's step. -/

namespace Sys2Proof.Machine

open Sys2Proof.Safety

/-! The input window. -/

@[simp] theorem inputWindow_length (s : State) : (inputWindow s).length = min 4 (remaining s) := by
  simp [inputWindow]

theorem inputWindow_zero {s : State} (h : remaining s = 0) : inputWindow s = [] := by
  simp [inputWindow, h]

theorem inputWindow_one {s : State} (h : remaining s = 1) : inputWindow s = [inByte s s.inIdx.toNat] := by
  simp [inputWindow, h, List.range_succ]

theorem inputWindow_two {s : State} (h : remaining s = 2) :
    inputWindow s = [inByte s s.inIdx.toNat, inByte s (s.inIdx.toNat + 1)] := by
  simp [inputWindow, h, List.range_succ]

theorem inputWindow_three {s : State} (h : remaining s = 3) :
    inputWindow s = [inByte s s.inIdx.toNat, inByte s (s.inIdx.toNat + 1), inByte s (s.inIdx.toNat + 2)] := by
  simp [inputWindow, h, List.range_succ]

theorem inputWindow_four {s : State} (h : 4 ≤ remaining s) :
    inputWindow s = [inByte s s.inIdx.toNat, inByte s (s.inIdx.toNat + 1), inByte s (s.inIdx.toNat + 2),
      inByte s (s.inIdx.toNat + 3)] := by
  simp [inputWindow, Nat.min_eq_left h, List.range_succ]

/-- With a byte remaining the window starts at `in_idx`. -/
theorem inputWindow_cons {s : State} (h : 1 ≤ remaining s) :
    ∃ rest, inputWindow s = inByte s s.inIdx.toNat :: rest := by
  have : remaining s = 1 ∨ remaining s = 2 ∨ remaining s = 3 ∨ 4 ≤ remaining s := by omega
  rcases this with h | h | h | h
  · exact ⟨_, inputWindow_one h⟩
  · exact ⟨_, inputWindow_two h⟩
  · exact ⟨_, inputWindow_three h⟩
  · exact ⟨_, inputWindow_four h⟩

/-- With two bytes remaining the window holds them, and as many more as remain up to four. -/
theorem inputWindow_cons_cons {s : State} (h : 2 ≤ remaining s) :
    ∃ rest, inputWindow s = inByte s s.inIdx.toNat :: inByte s (s.inIdx.toNat + 1) :: rest ∧
      (3 ≤ remaining s → ∃ rest', rest = inByte s (s.inIdx.toNat + 2) :: rest') ∧
      (4 ≤ remaining s → rest = [inByte s (s.inIdx.toNat + 2), inByte s (s.inIdx.toNat + 3)]) ∧
      (remaining s = 2 → rest = []) ∧ (remaining s = 3 → rest = [inByte s (s.inIdx.toNat + 2)]) := by
  have : remaining s = 2 ∨ remaining s = 3 ∨ 4 ≤ remaining s := by omega
  rcases this with h | h | h
  · exact ⟨_, inputWindow_two h, by omega, by omega, fun _ => rfl, by omega⟩
  · exact ⟨_, inputWindow_three h, fun _ => ⟨_, rfl⟩, by omega, by omega, fun _ => rfl⟩
  · exact ⟨_, inputWindow_four h, fun _ => ⟨_, rfl⟩, fun _ => rfl, by omega, by omega⟩

/-! The decoder. -/

/-- What the match decoder gives: an element of the match slot whose size fits, or the shortage. -/
theorem decodeMatch_cases (b0 b1 : Byte) (rest : List Byte) :
    (decodeMatch b0 b1 rest = .element (.m1 (m1Off b0)) ∧ b0.toNat % 4 = 0) ∨
    (decodeMatch b0 b1 rest = .element (.m2 (m2Len b0) (m2Off b0 b1)) ∧ b0.toNat % 4 = 2) ∨
    (decodeMatch b0 b1 rest = .element (.m3 (m3Off b0 b1)) ∧ b0.toNat % 4 = 1) ∨
    (∃ b2 b3 more, rest = b2 :: b3 :: more ∧ b0.toNat % 8 = 7 ∧
      decodeMatch b0 b1 rest = .element (.m4 (m4Len b0 b3) (m4Off b1 b2 b3) (b1.setWidth 3))) ∨
    (rest.length < 2 ∧ b0.toNat % 8 = 7 ∧ decodeMatch b0 b1 rest = .short .token) ∨
    (∃ b2 more, rest = b2 :: more ∧ b0.toNat % 8 = 3 ∧
      decodeMatch b0 b1 rest = .element (.m5 (m5Len b0) (m5Off b1 b2))) ∨
    (rest = [] ∧ b0.toNat % 8 = 3 ∧ decodeMatch b0 b1 rest = .short .token) := by
  have h3 := byte_and_three b0
  have h7 := byte_and_seven b0
  have e (x : Byte) (k : Nat) (hk : k < 256) : (b0 &&& x = BitVec.ofNat 8 k) = ((b0 &&& x).toNat = k) := by
    rw [BitVec.toNat_eq, BitVec.toNat_ofNat, Nat.mod_eq_of_lt hk]
  have e0 : (b0 &&& 3 = 0) = (b0.toNat % 4 = 0) := by rw [← h3]; exact e 3 0 (by omega)
  have e2 : (b0 &&& 3 = 2) = (b0.toNat % 4 = 2) := by rw [← h3]; exact e 3 2 (by omega)
  have e1 : (b0 &&& 3 = 1) = (b0.toNat % 4 = 1) := by rw [← h3]; exact e 3 1 (by omega)
  have e7 : (b0 &&& 7 = 7) = (b0.toNat % 8 = 7) := by rw [← h7]; exact e 7 7 (by omega)
  simp only [decodeMatch, e0, e1, e2, e7]
  by_cases c0 : b0.toNat % 4 = 0
  · simp [c0]
  by_cases c2 : b0.toNat % 4 = 2
  · simp [c2]
  by_cases c1 : b0.toNat % 4 = 1
  · simp [c1]
  by_cases c7 : b0.toNat % 8 = 7
  · match rest with
    | b2 :: b3 :: more => simp [c0, c1, c2, c7]
    | [b2] => simp [c0, c1, c2, c7]
    | [] => simp [c0, c1, c2, c7]
  · have c3 : b0.toNat % 8 = 3 := by omega
    match rest with
    | b2 :: more => simp [c0, c1, c2, c3]
    | [] => simp [c0, c1, c2, c3]

/-! The shared operations of the meanings. -/

/-- `beginMatch` either halts for want of bytes or consumes and latches. -/
theorem beginMatch_cases (size : Nat) (len : BitVec 9) (off : BitVec 21) (s : State) :
    (beginMatch size len off s = .next (raiseHalt .tokenShort s) ∧ (remaining s < 2 ∨ remaining s < size)) ∨
    (beginMatch size len off s = .next (consume size (latchMatch len off s)) ∧ 2 ≤ remaining s ∧
      size ≤ remaining s) := by
  by_cases h2 : remaining s < 2
  · left; simp [beginMatch, Config.matchLookahead, h2]
  by_cases hs : remaining s < size
  · left; simp [beginMatch, Config.matchLookahead, h2, hs]
  · right; simp [beginMatch, Config.matchLookahead, h2, hs]; omega

theorem beginMatch_next {size : Nat} {len : BitVec 9} {off : BitVec 21} {s : State} (h2 : 2 ≤ remaining s)
    (hs : size ≤ remaining s) :
    beginMatch size len off s = .next (consume size (latchMatch len off s)) := by
  rcases beginMatch_cases size len off s with ⟨_, h⟩ | ⟨h, _⟩
  · omega
  · exact h

theorem beginMatch_short {size : Nat} {len : BitVec 9} {off : BitVec 21} {s : State}
    (h : remaining s < 2 ∨ remaining s < size) :
    beginMatch size len off s = .next (raiseHalt .tokenShort s) := by
  rcases beginMatch_cases size len off s with ⟨h', _⟩ | ⟨_, h'⟩
  · exact h'
  · omega

/-- `execLit` halts, writes, or faults in a state whose output is full. -/
theorem execLit_cases (v : Byte) (s : State) :
    (execLit v s = .next (raiseHalt .litShort s) ∧ remaining s = 0) ∨
    (execLit v s = .next (consume 1 (emit v s)) ∧ 1 ≤ remaining s ∧ s.outIdx < s.outCap) ∨
    (execLit v s = .fault .outWriteBeyondCapacity ∧ 1 ≤ remaining s ∧ ¬ s.outIdx < s.outCap) := by
  by_cases h1 : remaining s < 1
  · left; exact ⟨if_pos h1, by omega⟩
  by_cases ho : s.outIdx < s.outCap
  · right; left; exact ⟨by rw [execLit, if_neg h1, if_pos ho], by omega, ho⟩
  · right; right; exact ⟨by rw [execLit, if_neg h1, if_neg ho], by omega, ho⟩

theorem execInd_cases (w : Word) (s : State) :
    (execInd w s = .next (raiseHalt .refillShort s) ∧ remaining s < 4) ∨
    (execInd w s = .next (consume 4 (loadIndicator w s)) ∧ 4 ≤ remaining s) := by
  by_cases h : remaining s < 4
  · left; exact ⟨if_pos h, h⟩
  · right; exact ⟨if_neg h, by omega⟩

/-- The copy step: the copy is over, underflows, is cut by the output's end, or copies one byte. -/
theorem copyStep_cases (s : State) :
    (s.cnt = 0 ∧ copyStep s = { s with phase := .run }) ∨
    (s.cnt ≠ 0 ∧ s.outIdx.toNat ≤ s.mOff.toNat ∧ copyStep s = raiseHalt .srcUnderflow s) ∨
    (s.cnt ≠ 0 ∧ s.mOff.toNat < s.outIdx.toNat ∧ s.outCap ≤ s.outIdx ∧ copyStep s = raiseHalt .outFullCopy s) ∨
    (s.cnt ≠ 0 ∧ s.mOff.toNat < s.outIdx.toNat ∧ s.outIdx < s.outCap ∧
      copyStep s = countDown (emit (outByte s (s.outIdx.toNat - (s.mOff.toNat + 1))) s)) := by
  have hsrc : copySource s < 0 ↔ s.outIdx.toNat ≤ s.mOff.toNat := by
    simp only [copySource]; omega
  have hnat : (copySource s).toNat = s.outIdx.toNat - (s.mOff.toNat + 1) := by
    simp only [copySource]; omega
  by_cases h0 : s.cnt = 0
  · left; exact ⟨h0, by rw [copyStep, if_pos h0]⟩
  by_cases h1 : s.outIdx.toNat ≤ s.mOff.toNat
  · right; left; exact ⟨h0, h1, by rw [copyStep, if_neg h0, if_pos (hsrc.mpr h1)]⟩
  by_cases h2 : s.outCap ≤ s.outIdx
  · right; right; left; exact ⟨h0, by omega, h2, by rw [copyStep, if_neg h0, if_neg (mt hsrc.mp h1), if_pos h2]⟩
  · right; right; right
    refine ⟨h0, by omega, by simpa [BitVec.not_le] using h2, ?_⟩
    rw [copyStep, if_neg h0, if_neg (mt hsrc.mp h1), if_neg h2, hnat]

/-! The sequencing. -/

/-- The token of a token step: a literal or a match token, or the shortage of bytes for it. -/
theorem runToken_cases (s : State) (ho : s.outIdx < s.outCap) :
    (controlBit s = false ∧ remaining s = 0 ∧ runToken s = .next (raiseHalt .litShort s)) ∨
    (controlBit s = false ∧ 1 ≤ remaining s ∧
      runToken s = .next (consume 1 (emit (inByte s s.inIdx.toNat) s))) ∨
    (controlBit s = true ∧ (remaining s < 2 ∨
        ((inByte s s.inIdx.toNat).toNat % 8 = 7 ∧ remaining s < 4) ∨
        ((inByte s s.inIdx.toNat).toNat % 8 = 3 ∧ remaining s < 3)) ∧
      runToken s = .next (raiseHalt .tokenShort s)) ∨
    (∃ i : Instr, ∃ len off, controlBit s = true ∧ 2 ≤ remaining s ∧ i.size ≤ remaining s ∧ 1 ≤ i.size ∧ i.size ≤ 4 ∧
      3 ≤ len.toNat ∧ len.toNat ≤ 258 ∧ decode .matchToken (inputWindow s) = .element i ∧
      runToken s = .next (consume i.size (latchMatch len off s))) := by
  cases hc : controlBit s
  · by_cases h : remaining s = 0
    · left; exact ⟨rfl, h, by simp [runToken, tokenSlot, hc, fetchAndRun, decode, inputWindow_zero h, shortCause]⟩
    · right; left
      obtain ⟨rest, hw⟩ := inputWindow_cons (s := s) (by omega)
      refine ⟨rfl, by omega, ?_⟩
      rcases execLit_cases (inByte s s.inIdx.toNat) s with ⟨_, h'⟩ | ⟨h', _⟩ | ⟨_, _, h'⟩
      · omega
      · simpa [runToken, tokenSlot, hc, fetchAndRun, decode, hw, exec] using h'
      · exact absurd ho h'
  · right; right
    by_cases h2 : remaining s < 2
    · left
      refine ⟨rfl, .inl h2, ?_⟩
      have : remaining s = 0 ∨ remaining s = 1 := by omega
      rcases this with h | h
      · simp [runToken, tokenSlot, hc, fetchAndRun, decode, inputWindow_zero h, shortCause]
      · simp [runToken, tokenSlot, hc, fetchAndRun, decode, inputWindow_one h, shortCause]
    · obtain ⟨rest, hw, w3, w4, w2, w33⟩ := inputWindow_cons_cons (s := s) (by omega)
      have hd : decode .matchToken (inputWindow s) =
          decodeMatch (inByte s s.inIdx.toNat) (inByte s (s.inIdx.toNat + 1)) rest := by simp [decode, hw]
      have hl := inputWindow_length s
      rw [hw] at hl
      simp only [List.length_cons] at hl
      have run_eq : ∀ i, decode .matchToken (inputWindow s) = .element i → runToken s = exec i s := by
        intro i hi; simp [runToken, tokenSlot, hc, fetchAndRun, hi]
      have short_eq : decode .matchToken (inputWindow s) = .short .token →
          runToken s = .next (raiseHalt .tokenShort s) := by
        intro hi; simp [runToken, tokenSlot, hc, fetchAndRun, hi, shortCause]
      have b0lt := (inByte s s.inIdx.toNat).isLt
      rcases decodeMatch_cases (inByte s s.inIdx.toNat) (inByte s (s.inIdx.toNat + 1)) rest with
        ⟨h, -⟩ | ⟨h, -⟩ | ⟨h, -⟩ | ⟨b2, b3, more, hr, -, h⟩ | ⟨hr, h8, h⟩ | ⟨b2, more, hr, -, h⟩ | ⟨hr, h8, h⟩
      · right
        refine ⟨_, Config.minMatch, m1Off (inByte s s.inIdx.toNat), rfl, by omega, ?_, ?_, ?_, by decide, by decide, hd.trans h, ?_⟩
        · simp only [Instr.size]; omega
        · simp [Instr.size]
        · simp [Instr.size]
        · rw [run_eq _ (hd.trans h)]; exact beginMatch_next (by omega) (by omega)
      · right
        refine ⟨_, m2Len (inByte s s.inIdx.toNat), m2Off (inByte s s.inIdx.toNat) (inByte s (s.inIdx.toNat + 1)), rfl, by omega, ?_, ?_, ?_, ?_, ?_, hd.trans h, ?_⟩
        · simp only [Instr.size]; omega
        · simp [Instr.size]
        · simp [Instr.size]
        · rw [m2Len_toNat]; omega
        · rw [m2Len_toNat]; omega
        · rw [run_eq _ (hd.trans h)]; exact beginMatch_next (by omega) (by omega)
      · right
        refine ⟨_, Config.minMatch, m3Off (inByte s s.inIdx.toNat) (inByte s (s.inIdx.toNat + 1)), rfl, by omega, ?_, ?_, ?_, by decide, by decide, hd.trans h, ?_⟩
        · simp only [Instr.size]; omega
        · simp [Instr.size]
        · simp [Instr.size]
        · rw [run_eq _ (hd.trans h)]; exact beginMatch_next (by omega) (by omega)
      · right
        have h4 : 4 ≤ remaining s := by rw [hr] at hl; simp only [List.length_cons] at hl; omega
        refine ⟨_, m4Len (inByte s s.inIdx.toNat) b3, m4Off (inByte s (s.inIdx.toNat + 1)) b2 b3, rfl, by omega, ?_, ?_, ?_, ?_, ?_, hd.trans h, ?_⟩
        · simp only [Instr.size]; omega
        · simp [Instr.size]
        · simp [Instr.size]
        · rw [m4Len_toNat]; omega
        · rw [m4Len_toNat]; omega
        · rw [run_eq _ (hd.trans h)]; exact beginMatch_next (by omega) (by omega)
      · left; exact ⟨rfl, .inr (.inl ⟨h8, by omega⟩), short_eq (hd.trans h)⟩
      · right
        have h3 : 3 ≤ remaining s := by rw [hr] at hl; simp only [List.length_cons] at hl; omega
        refine ⟨_, m5Len (inByte s s.inIdx.toNat), m5Off (inByte s (s.inIdx.toNat + 1)) b2, rfl, by omega, ?_, ?_, ?_, ?_, ?_, hd.trans h, ?_⟩
        · simp only [Instr.size]; omega
        · simp [Instr.size]
        · simp [Instr.size]
        · rw [m5Len_toNat]; omega
        · rw [m5Len_toNat]; omega
        · rw [run_eq _ (hd.trans h)]; exact beginMatch_next (by omega) (by omega)
      · left
        refine ⟨rfl, .inr (.inr ⟨h8, ?_⟩), short_eq (hd.trans h)⟩
        rw [hr] at hl; simp only [List.length_nil] at hl; omega

theorem tokenState_refill {s : State} (h : s.bitPos + 1 = 31) :
    tokenState s = consume 4 (loadIndicator (indWord (inByte s s.inIdx.toNat) (inByte s (s.inIdx.toNat + 1))
      (inByte s (s.inIdx.toNat + 2)) (inByte s (s.inIdx.toNat + 3))) (advanceBit s)) :=
  if_pos h

theorem tokenState_same {s : State} (h : s.bitPos + 1 ≠ 31) : tokenState s = advanceBit s :=
  if_neg h

/-- A token step that passes its loop guard: the refill falls short, or the token runs in `tokenState`. -/
theorem afterGuard_cases (s : State) (hp : s.phase = .run) :
    (s.bitPos + 1 = 31 ∧ remaining s < 4 ∧ afterGuard s = .next (raiseHalt .refillShort (advanceBit s))) ∨
    ((s.bitPos + 1 = 31 → 4 ≤ remaining s) ∧ afterGuard s = runToken (tokenState s)) := by
  have hrem : remaining (advanceBit s) = remaining s := rfl
  by_cases hb : s.bitPos + 1 = 31
  · by_cases h4 : remaining s < 4
    · left
      refine ⟨hb, h4, ?_⟩
      have hdec : decode .indicator (inputWindow (advanceBit s)) = .short .refill := by
        have hw : (inputWindow (advanceBit s)).length < 4 := by rw [inputWindow_length, hrem]; omega
        match hh : inputWindow (advanceBit s) with
        | [] => rfl
        | [_] => rfl
        | [_, _] => rfl
        | [_, _, _] => rfl
        | _ :: _ :: _ :: _ :: _ => rw [hh] at hw; simp at hw; omega
      rw [afterGuard, if_pos (show (advanceBit s).bitPos = Config.ctlBits from hb)]
      simp [refillThenToken, fetchAndRun, hdec, shortCause]
    · right
      refine ⟨fun _ => by omega, ?_⟩
      rw [tokenState_refill hb]
      have hw := inputWindow_four (s := advanceBit s) (by rw [hrem]; omega)
      rcases execInd_cases (indWord (inByte s s.inIdx.toNat) (inByte s (s.inIdx.toNat + 1))
        (inByte s (s.inIdx.toNat + 2)) (inByte s (s.inIdx.toNat + 3))) (advanceBit s) with ⟨_, h⟩ | ⟨h, _⟩
      · rw [hrem] at h; omega
      · have hi : ∀ a, inByte (advanceBit s) a = inByte s a := fun a => inByte_congr rfl rfl a
        simp only [advanceBit_inIdx, hi] at hw
        rw [afterGuard, if_pos (show (advanceBit s).bitPos = Config.ctlBits from hb)]
        simp [refillThenToken, fetchAndRun, hw, decode, exec, h, hp]
  · right
    refine ⟨fun h => absurd h hb, ?_⟩
    rw [tokenState_same hb]
    exact if_neg hb

/-- A token step: a loop guard fails (R71), or `afterGuard` decides. -/
theorem tokenStep_cases (s : State) :
    (s.outCap ≤ s.outIdx ∧ tokenStep s = .next (raiseHalt .outFull s)) ∨
    (s.outIdx < s.outCap ∧ s.inLen ≤ s.inIdx ∧ tokenStep s = .next (raiseHalt .inEmpty s)) ∨
    (s.outIdx < s.outCap ∧ s.inIdx < s.inLen ∧ tokenStep s = afterGuard s) := by
  by_cases h1 : s.outIdx < s.outCap
  · by_cases h2 : s.inIdx < s.inLen
    · right; right; exact ⟨h1, h2, by simp [tokenStep, h1, h2]⟩
    · right; left; exact ⟨h1, BitVec.not_lt.mp h2, by simp [tokenStep, h1, h2]⟩
  · left; exact ⟨BitVec.not_lt.mp h1, by simp [tokenStep, h1]⟩

@[simp] theorem tokenState_inMem (s : State) : (tokenState s).inMem = s.inMem := by
  simp only [tokenState]; split <;> rfl

@[simp] theorem tokenState_outMem (s : State) : (tokenState s).outMem = s.outMem := by
  simp only [tokenState]; split <;> rfl

@[simp] theorem tokenState_outIdx (s : State) : (tokenState s).outIdx = s.outIdx := by
  simp only [tokenState]; split <;> rfl

@[simp] theorem tokenState_outCap (s : State) : (tokenState s).outCap = s.outCap := by
  simp only [tokenState]; split <;> rfl

@[simp] theorem tokenState_inLen (s : State) : (tokenState s).inLen = s.inLen := by
  simp only [tokenState]; split <;> rfl

@[simp] theorem tokenState_phase (s : State) : (tokenState s).phase = s.phase := by
  simp only [tokenState]; split <;> rfl

@[simp] theorem tokenState_cause (s : State) : (tokenState s).cause = s.cause := by
  simp only [tokenState]; split <;> rfl

@[simp] theorem tokenState_host (s : State) : (tokenState s).host = s.host := by
  simp only [tokenState]; split <;> rfl

@[simp] theorem tokenState_hostData (s : State) : (tokenState s).hostData = s.hostData := by
  simp only [tokenState]; split <;> rfl

@[simp] theorem tokenState_resets (s : State) : (tokenState s).resets = s.resets := by
  simp only [tokenState]; split <;> rfl

@[simp] theorem tokenState_draws (s : State) : (tokenState s).draws = s.draws := by
  simp only [tokenState]; split <;> rfl

@[simp] theorem tokenState_latches (s : State) :
    (tokenState s).mLen = s.mLen ∧ (tokenState s).mOff = s.mOff ∧ (tokenState s).cnt = s.cnt := by
  simp only [tokenState]; split <;> exact ⟨rfl, rfl, rfl⟩

/-- What remains after the refill (R12, R74). -/
theorem tokenState_inIdx {s : State} (h : s.bitPos + 1 = 31 → 4 ≤ remaining s) :
    (tokenState s).inIdx.toNat = s.inIdx.toNat + (if s.bitPos + 1 = 31 then 4 else 0) := by
  by_cases hb : s.bitPos + 1 = 31
  · have h4 := h hb
    have hl := s.inLen.isLt
    simp only [remaining] at h4
    rw [tokenState_refill hb, if_pos hb]
    simp [consume, loadIndicator, advanceBit]
    omega
  · rw [tokenState_same hb, if_neg hb]; simp

/-- Everything a token step can do, in one list (R71, R74, R75, R78). -/
theorem tokenStep_outcomes (s : State) (hp : s.phase = .run) :
    (s.outCap ≤ s.outIdx ∧ tokenStep s = .next (raiseHalt .outFull s)) ∨
    (s.outIdx < s.outCap ∧ s.inLen ≤ s.inIdx ∧ tokenStep s = .next (raiseHalt .inEmpty s)) ∨
    (s.outIdx < s.outCap ∧ s.inIdx < s.inLen ∧ s.bitPos + 1 = 31 ∧ remaining s < 4 ∧
      tokenStep s = .next (raiseHalt .refillShort (advanceBit s))) ∨
    (s.outIdx < s.outCap ∧ s.inIdx < s.inLen ∧ (s.bitPos + 1 = 31 → 4 ≤ remaining s) ∧
      ((controlBit (tokenState s) = false ∧ remaining (tokenState s) = 0 ∧
          tokenStep s = .next (raiseHalt .litShort (tokenState s))) ∨
        (controlBit (tokenState s) = false ∧ 1 ≤ remaining (tokenState s) ∧
          tokenStep s = .next (consume 1 (emit (inByte s (tokenState s).inIdx.toNat) (tokenState s)))) ∨
        (controlBit (tokenState s) = true ∧ (remaining (tokenState s) < 2 ∨
            ((inByte s (tokenState s).inIdx.toNat).toNat % 8 = 7 ∧ remaining (tokenState s) < 4) ∨
            ((inByte s (tokenState s).inIdx.toNat).toNat % 8 = 3 ∧ remaining (tokenState s) < 3)) ∧
          tokenStep s = .next (raiseHalt .tokenShort (tokenState s))) ∨
        (∃ i : Instr, ∃ len off, controlBit (tokenState s) = true ∧ 2 ≤ remaining (tokenState s) ∧
          i.size ≤ remaining (tokenState s) ∧ 1 ≤ i.size ∧ i.size ≤ 4 ∧ 3 ≤ len.toNat ∧ len.toNat ≤ 258 ∧
          decode .matchToken (inputWindow (tokenState s)) = .element i ∧
          tokenStep s = .next (consume i.size (latchMatch len off (tokenState s)))))) := by
  rcases tokenStep_cases s with h | h | ⟨ho, hi, ht⟩
  · exact .inl h
  · exact .inr (.inl h)
  · right; right
    rcases afterGuard_cases s hp with ⟨hb, h4, h⟩ | ⟨h4, h⟩
    · exact .inl ⟨ho, hi, hb, h4, ht.trans h⟩
    · right
      refine ⟨ho, hi, h4, ?_⟩
      have hin : ∀ a, inByte (tokenState s) a = inByte s a := fun a => inByte_congr (by simp) (by simp) a
      rw [ht, h]
      simpa only [hin] using runToken_cases (tokenState s) (by simpa using ho)

/-- With the host's list empty a step is the engine's. -/
theorem step_alone {s : State} (h : s.host = []) : step s = engineStep s := by
  simp [step, advance, h]

/-- With an event first in the host's list, a step is that event. -/
theorem step_event {s : State} {e : HostEvent} {rest : List HostEvent} (h : s.host = e :: rest) :
    step s = hostAct e { s with host := rest } := by
  simp [step, advance, h]

theorem engineStep_run {s : State} (h : s.phase = .run) : engineStep s = tokenStep s := by
  simp [engineStep, h]

theorem engineStep_copy {s : State} (h : s.phase = .copy) : engineStep s = .next (copyStep s) := by
  simp [engineStep, h]

/-- What one event can do: the engine's step, START accepted, hardware reset, one of the four host writes outside a
decode, or nothing but a record of what was read. -/
theorem hostAct_cases {e : HostEvent} {s t : State} (h : hostAct e s = .next t) :
    (e = .engineTurn ∧ engineStep s = .next t) ∨
    (e = .writeStart 1 ∧ busy s = false ∧ t = beginDecode s) ∨
    (e = .hardReset ∧ t = hardReset s) ∨
    (busy s = false ∧ ((∃ v, e = .writeInLen v ∧ t = { s with inLen := v }) ∨
      (∃ v, e = .writeOutCap v ∧ t = { s with outCap := v }) ∨
      (∃ a v, e = .storeIn a v ∧ t = { s with inMem := Memory.write s.inMem a.toNat v }) ∨
      (∃ a v, e = .storeOut a v ∧ t = { s with outMem := Memory.write s.outMem a.toNat v }))) ∨
    (e ≠ .engineTurn ∧ e ≠ .hardReset ∧ (e = .writeStart 1 → busy s = true) ∧
      t = { s with hostData := t.hostData, draws := t.draws }) := by
  have hw : ∀ f, hostWrite f s = .next t → busy s = false ∧ t = f s := by
    intro f hf
    cases hb : busy s
    · rw [hostWrite, if_neg (by simp [hb])] at hf; cases hf; exact ⟨rfl, rfl⟩
    · rw [hostWrite, if_pos hb] at hf; cases hf
  cases e with
  | engineTurn => exact .inl ⟨rfl, h⟩
  | writeInLen v =>
    obtain ⟨hb, ht⟩ := hw (fun u => { u with inLen := v }) h
    exact .inr (.inr (.inr (.inl ⟨hb, .inl ⟨v, rfl, ht⟩⟩)))
  | writeOutCap v =>
    obtain ⟨hb, ht⟩ := hw (fun u => { u with outCap := v }) h
    exact .inr (.inr (.inr (.inl ⟨hb, .inr (.inl ⟨v, rfl, ht⟩)⟩)))
  | storeIn a v =>
    obtain ⟨hb, ht⟩ := hw (fun u => { u with inMem := Memory.write u.inMem a.toNat v }) h
    exact .inr (.inr (.inr (.inl ⟨hb, .inr (.inr (.inl ⟨a, v, rfl, ht⟩))⟩)))
  | storeOut a v =>
    obtain ⟨hb, ht⟩ := hw (fun u => { u with outMem := Memory.write u.outMem a.toNat v }) h
    exact .inr (.inr (.inr (.inl ⟨hb, .inr (.inr (.inr ⟨a, v, rfl, ht⟩))⟩)))
  | writeStart v =>
    simp only [hostAct, writeStart, Host.Outcome.next.injEq] at h
    by_cases hv : v = 1 ∧ ¬ busy s = true
    · rw [if_pos hv] at h
      exact .inr (.inl ⟨by rw [hv.1], by simpa using hv.2, h.symm⟩)
    · rw [if_neg hv] at h
      refine .inr (.inr (.inr (.inr ⟨by simp, by simp, fun he => ?_, by rw [← h]⟩)))
      simp only [HostEvent.writeStart.injEq] at he
      by_contra hb
      exact hv ⟨he, hb⟩
  | readReg r =>
    simp only [hostAct, Host.Outcome.next.injEq] at h
    refine .inr (.inr (.inr (.inr ⟨by simp, by simp, by simp, ?_⟩)))
    subst h
    cases r <;> simp only [hostReadReg] <;> (try split) <;> rfl
  | readOut a =>
    simp only [hostAct, Host.Outcome.next.injEq] at h
    refine .inr (.inr (.inr (.inr ⟨by simp, by simp, by simp, ?_⟩)))
    subst h
    simp only [hostReadOut]; split <;> rfl
  | hardReset =>
    simp only [hostAct, Host.Outcome.next.injEq] at h
    exact .inr (.inr (.inl ⟨rfl, h.symm⟩))

end Sys2Proof.Machine
end

