-- ==== Sys2Proof/Laws/Arith.lean ====
section
/-! SUPPORT. Small facts of arithmetic that statements about the engine come down to: the formulas of the spec in Nat, the control bit,
indices that advance below a limit, and the bit-position counter. -/

namespace Sys2Proof.Machine

open Sys2Proof.Safety

theorem nat_and_three (n : Nat) : n &&& 3 = n % 4 := Nat.and_two_pow_sub_one_eq_mod n 2

theorem nat_and_seven (n : Nat) : n &&& 7 = n % 8 := Nat.and_two_pow_sub_one_eq_mod n 3

theorem nat_and_fifteen (n : Nat) : n &&& 0xF = n % 16 := Nat.and_two_pow_sub_one_eq_mod n 4

/-- The OR of disjoint fields is their sum (R60). -/
theorem nat_shift_or {a b k : Nat} (h : b < 2 ^ k) : (a <<< k) ||| b = a * 2 ^ k + b := by
  rw [← Nat.shiftLeft_add_eq_or_of_lt h, Nat.shiftLeft_eq]

/-- The indicator word in the form of R31's formula. -/
theorem indWord_toNat_or (w0 w1 w2 w3 : Byte) :
    (indWord w0 w1 w2 w3).toNat = (w0.toNat ||| w1.toNat <<< 8 ||| w2.toNat <<< 16 ||| w3.toNat <<< 24) := by
  have h0 := w0.isLt
  have h1 := w1.isLt
  have h2 := w2.isLt
  have h3 := w3.isLt
  simp [indWord, Nat.shiftLeft_eq]
  rw [Nat.mod_eq_of_lt (show w1.toNat * 256 < 4294967296 by omega),
    Nat.mod_eq_of_lt (show w2.toNat * 65536 < 4294967296 by omega),
    Nat.mod_eq_of_lt (show w3.toNat * 16777216 < 4294967296 by omega),
    Nat.mod_eq_of_lt (show w0.toNat < 4294967296 by omega)]

/-- The control bit as the spec writes it (R72). -/
theorem controlBit_iff (s : State) : controlBit s = true ↔ controlSet s := by
  have h := Nat.and_two_pow_sub_one_eq_mod (s.ind.toNat >>> s.bitPos.toNat) 1
  have h' : (s.ind.toNat >>> s.bitPos.toNat) &&& 1 = (s.ind.toNat >>> s.bitPos.toNat) % 2 := h
  simp only [controlSet, controlBit, BitVec.getLsbD, Nat.testBit, h']
  simp

theorem controlBit_false_iff (s : State) : controlBit s = false ↔ (s.ind.toNat >>> s.bitPos.toNat) &&& 1 = 0 := by
  have h := controlBit_iff s
  have h2 : (s.ind.toNat >>> s.bitPos.toNat) &&& 1 = (s.ind.toNat >>> s.bitPos.toNat) % 2 :=
    Nat.and_two_pow_sub_one_eq_mod (s.ind.toNat >>> s.bitPos.toNat) 1
  simp only [controlSet] at h
  cases hc : controlBit s
  · simp only [hc, Bool.false_eq_true, false_iff] at h
    simp only [true_iff]; omega
  · simp only [hc, true_iff] at h
    simp only [Bool.true_eq_false, false_iff]; omega

theorem busy_iff (s : State) : busy s = true ↔ s.phase = .run ∨ s.phase = .copy := by simp [busy]

/-- The increment of R73 reaches 31 exactly from 30. -/
theorem bitPos_reaches_iff (s : State) : s.bitPos + 1 = 31 ↔ s.bitPos = 30 := by
  constructor
  · intro h
    have h1 := s.bitPos.isLt
    have h2 := congrArg BitVec.toNat h
    simp at h2
    apply BitVec.eq_of_toNat_eq
    simp; omega
  · intro h; rw [h]; rfl

/-- An index below a limit advances by one without wrapping, and stays within it. -/
theorem word_succ_of_lt {x y : Word} (h : x < y) : (x + 1).toNat = x.toNat + 1 ∧ x + 1 ≤ y := by
  have := y.isLt
  simp only [BitVec.lt_def, BitVec.le_def] at *
  have : (x + 1).toNat = x.toNat + 1 := by simp; omega
  omega

/-- An index advances by `k` without wrapping where there is room. -/
theorem word_add_of_le {x y : Word} {k : Nat} (h : x.toNat + k ≤ y.toNat) :
    (x + BitVec.ofNat 32 k).toNat = x.toNat + k := by
  have := y.isLt
  rw [BitVec.toNat_add, BitVec.toNat_ofNat, Nat.add_mod_mod, Nat.mod_eq_of_lt]; omega

/-- A count that is not 0 goes down by one without wrapping. -/
theorem count_pred {c : BitVec 9} (h : c ≠ 0) : (c - 1).toNat = c.toNat - 1 ∧ c.toNat ≠ 0 := by
  have h0 : c.toNat ≠ 0 := fun e => h (BitVec.eq_of_toNat_eq (by simpa using e))
  have h1 : (1#9) ≤ c := by rw [BitVec.le_def]; simp; omega
  refine ⟨?_, h0⟩
  rw [show c - 1 = c - 1#9 from rfl, BitVec.toNat_sub_of_le h1]; rfl

/-- The input index across the refill of a token step: it stays within `in_len` and grows by at most four. -/
theorem tokenState_bounds {s : State} (h4 : s.bitPos + 1 = 31 → 4 ≤ remaining s) (hi : s.inIdx < s.inLen) :
    (tokenState s).inIdx.toNat + remaining (tokenState s) = s.inLen.toNat ∧
      s.inIdx.toNat ≤ (tokenState s).inIdx.toNat ∧ (tokenState s).inIdx.toNat ≤ s.inIdx.toNat + 4 := by
  have := tokenState_inIdx h4
  simp only [remaining, BitVec.lt_def, tokenState_inLen] at *
  split_ifs at this with hb
  · have := h4 hb; omega
  · omega

/-- The input index after a token has consumed `k` of the bytes that remained. -/
theorem consume_bounds {s u : State} (hu : u.inIdx = (tokenState s).inIdx)
    (h4 : s.bitPos + 1 = 31 → 4 ≤ remaining s) (hi : s.inIdx < s.inLen) {k : Nat}
    (hk : k ≤ remaining (tokenState s)) :
    (consume k u).inIdx.toNat = (tokenState s).inIdx.toNat + k ∧
      (tokenState s).inIdx.toNat + k ≤ s.inLen.toNat := by
  have := tokenState_bounds h4 hi
  refine ⟨?_, by omega⟩
  rw [consume_inIdx, hu]
  exact word_add_of_le (y := s.inLen) (by omega)

/-- The output byte a copy step writes at the cursor is the only one it changes. -/
theorem outByte_copied (v : Byte) (s : State) (a : Nat) :
    outByte (countDown (emit v s)) a = if a = s.outIdx.toNat then v else outByte s a :=
  outByte_emit v s a

end Sys2Proof.Machine
end

