-- ==== Sys2Proof/Laws/PerInstr.lean ====
section
/-! SUPPORT. Statements about every instruction as syntax, one family each and one lemma for each constructor. -/

namespace Sys2Proof.Laws

/-- The encoder gives exactly as many bytes as the element consumes (R50, R63, R100). -/
def EncodedSize.Statement (i : Instr) : Prop := (encode i).length = i.size

namespace EncodedSize

theorem ind (w : BitVec 32) : EncodedSize.Statement (.ind w) := rfl
theorem lit (v : BitVec 8) : EncodedSize.Statement (.lit v) := rfl
theorem m1 (off : BitVec 21) : EncodedSize.Statement (.m1 off) := rfl
theorem m2 (len : BitVec 9) (off : BitVec 21) : EncodedSize.Statement (.m2 len off) := rfl
theorem m3 (off : BitVec 21) : EncodedSize.Statement (.m3 off) := rfl
theorem m4 (len : BitVec 9) (off : BitVec 21) (x : BitVec 3) : EncodedSize.Statement (.m4 len off x) := rfl
theorem m5 (len : BitVec 9) (off : BitVec 21) : EncodedSize.Statement (.m5 len off) := rfl

end EncodedSize

end Sys2Proof.Laws
end

