-- ==== Sys2Proof/Laws/Runs.lean ====
section
/-! SUPPORT. Runs of steps: how they are taken apart and put together, and that a halted engine left alone stays as it is. -/

namespace Sys2Proof.Safety

open Sys2Proof.Machine

@[simp] theorem runSteps_zero (s : State) : runSteps 0 s = .next s := rfl

theorem runSteps_succ {n : Nat} {s t : State} (h : step s = .next t) : runSteps (n + 1) s = runSteps n t := by
  have h' : Sys2Proof.core.step s = .next t := h
  simp only [runSteps, Host.Core.run, h']
  rfl

/-- A run is cut in two at any of its states. -/
theorem runSteps_add {m n : Nat} {s t : State} (h : runSteps m s = .next t) :
    runSteps (m + n) s = runSteps n t := by
  induction m generalizing s with
  | zero =>
    simp only [runSteps_zero, Host.Outcome.next.injEq] at h
    rw [h, Nat.zero_add]
  | succ m ih =>
    match hs : step s with
    | .next u =>
      rw [runSteps_succ hs] at h
      rw [Nat.succ_add, runSteps_succ hs]
      exact ih h
    | .fault r =>
      have h' : Sys2Proof.core.step s = .fault r := hs
      simp only [runSteps, Host.Core.run, h'] at h
      cases h
    | .refused r =>
      have h' : Sys2Proof.core.step s = .refused r := hs
      simp only [runSteps, Host.Core.run, h'] at h
      cases h

theorem step_halted {s : State} (hp : s.phase = .halted) (hh : s.host = []) : step s = .next s := by
  rw [step_alone hh]; simp [engineStep, hp]

/-- A halted engine left alone does not change, however many steps are asked for. -/
theorem runSteps_halted {n : Nat} {s : State} (hp : s.phase = .halted) (hh : s.host = []) :
    runSteps n s = .next s := by
  induction n with
  | zero => rfl
  | succ n ih => rw [runSteps_succ (step_halted hp hh)]; exact ih

/-- A run that reaches HALTED early ends in the same state as the longer run. -/
theorem runSteps_halted_le {m n : Nat} {s t : State} (h : runSteps m s = .next t) (hp : t.phase = .halted)
    (hh : t.host = []) (hmn : m ≤ n) : runSteps n s = .next t := by
  obtain ⟨k, rfl⟩ := Nat.exists_eq_add_of_le hmn
  rw [runSteps_add h]
  exact runSteps_halted hp hh

theorem produced_length (s : State) : (produced s).length = s.outIdx.toNat := by simp [produced]

/-- The result depends on the cursor, the output memory and the reset count alone. -/
theorem produced_congr {s t : State} (hi : t.outIdx = s.outIdx) (hm : t.outMem = s.outMem)
    (hr : t.resets = s.resets) : produced t = produced s := by
  simp only [produced, hi]
  congr 1
  funext a
  exact outByte_congr hm hr a

end Sys2Proof.Safety
end

