-- ==== Sys2Proof/Tests/Slice0.lean ====
section
/-! SUPPORT. The model's own tests, their expected values from the spec's vectors and encodings, and for each statement of
Certificates/Slice0/Obligations.lean that has hypotheses a witness that meets them together. -/

namespace Sys2Proof.Tests

open Sys2Proof.Machine Sys2Proof.Safety

/-! Ill-formed terms, one for each check of `Instr.wellFormed`. -/

theorem test_illformed_m1_offset : Instr.wellFormed (.m1 64) = false := by decide
theorem test_illformed_m2_short : Instr.wellFormed (.m2 2 0) = false := by decide
theorem test_illformed_m2_long : Instr.wellFormed (.m2 19 0) = false := by decide
theorem test_illformed_m2_offset : Instr.wellFormed (.m2 3 1024) = false := by decide
theorem test_illformed_m3_offset : Instr.wellFormed (.m3 16384) = false := by decide
theorem test_illformed_m4_short : Instr.wellFormed (.m4 2 0 0) = false := by decide
theorem test_illformed_m4_long : Instr.wellFormed (.m4 259 0 0) = false := by decide
theorem test_illformed_m4_tie : Instr.wellFormed (.m4 35 0 0) = false := by decide
theorem test_illformed_m5_short : Instr.wellFormed (.m5 2 0) = false := by decide
theorem test_illformed_m5_long : Instr.wellFormed (.m5 35 0) = false := by decide
theorem test_illformed_m5_offset : Instr.wellFormed (.m5 3 65536) = false := by decide

/-! Words written out bit by bit from the rows of 30_encoding.md section 3, and the vectors F1 to F28 of
95_test_vectors.md at the ends of their ranges. -/

/-- R52: `cccccccc cccccccc cccccccc xccccccc`, the first byte the least significant. -/
theorem test_word_ind : decode .indicator [0b00000010, 0b00000001, 0b10000000, 0b10000000] =
    .element (.ind 0x80800102) := by decide

/-- R53: `vvvvvvvv`, every value a literal, also one that would lead an `M4`. -/
theorem test_word_lit : decode .literal [0b11111111, 0b00000000] = .element (.lit 255) := by decide

/-- R54: `oooooo00`, offset 63 and a byte to follow (F3). -/
theorem test_word_m1 : decode .matchToken [0b11111100, 0b00000000] = .element (.m1 63) := by decide

/-- R55: `oollll10 oooooooo` (F6). -/
theorem test_word_m2 : decode .matchToken [0b01111110, 0b00000000] = .element (.m2 18 1) := by decide

/-- R55, greatest offset and least length (F7). -/
theorem test_word_m2_far : decode .matchToken [0b11000010, 0b11111111] = .element (.m2 3 1023) := by decide

/-- R56: `oooooo01 oooooooo` (F13). -/
theorem test_word_m3 : decode .matchToken [0b11111101, 0b11111111] = .element (.m3 16383) := by decide

/-- R57: `lllll111 oooooxxx oooooooo ooooobbb`, the last byte's low bits in both fields (F19). -/
theorem test_word_m4 : decode .matchToken [0b00000111, 0b00000000, 0b00000000, 0b00000111] =
    .element (.m4 227 57344 0) := by decide

/-- R57, the second and third byte's bits (F21), with the ignored bits set. -/
theorem test_word_m4_ignored : decode .matchToken [0b00000111, 0b11111101, 0b11111111, 0b00000000] =
    .element (.m4 3 8191 5) := by decide

/-- R58: `lllll011 oooooooo oooooooo` (F27, F26). -/
theorem test_word_m5 : decode .matchToken [0b11111011, 0b00110100, 0b00010010] = .element (.m5 34 4660) := by decide

/-- R90, R92: one byte is not enough even for an `M1`; three are not enough for an `M4`. -/
theorem test_word_short : decode .matchToken [0b11111100] = .short .token ∧
    decode .matchToken [0b00000111, 0, 0] = .short .token ∧ decode .indicator [0, 0, 0] = .short .refill ∧
    decode .literal [] = .short .literal := by decide

/-- R63, for the bytes of F8, F22 and F28. -/
theorem test_encode : encode (.m2 18 1023) = [0xFE, 0xFF] ∧ encode (.m4 258 2097151 7) = [0xFF, 0xFF, 0xFF, 0xFF] ∧
    encode (.m5 34 65535) = [0xFB, 0xFF, 0xFF] ∧ encode (.m1 3) = [0x0C] ∧ encode (.m3 64) = [0x01, 0x01] := by decide

/-! Small states. -/

/-- The bytes at the indices from 0 on. -/
def listed (bytes : List Byte) : Memory := bytes.zipIdx.map (fun p => (p.2, p.1))

/-- A decode of `bytes` just started. -/
def launchedOn (bytes : List Byte) (cap : Word) : State :=
  { State.reset with
    inLen := BitVec.ofNat 32 bytes.length, outCap := cap, bitPos := 30, phase := .run, inMem := listed bytes }

/-- A decode under way: `n` input bytes consumed, `out` produced. -/
def under (bytes : List Byte) (n : Word) (out : List Byte) (cap : Word) (ind : Word) (bitPos : BitVec 5) : State :=
  { launchedOn bytes cap with
    inIdx := n, outIdx := BitVec.ofNat 32 out.length, outMem := listed out, ind := ind, bitPos := bitPos }

/-- A copy under way, its input used up. -/
def copying (out : List Byte) (cap : Word) (len : BitVec 9) (off : BitVec 21) (cnt : BitVec 9) : State :=
  { under [0] 1 out cap 0 0 with phase := .copy, mLen := len, mOff := off, cnt := cnt }

/-- A decode over. -/
def finished (out : List Byte) : State := { under [0] 1 out 4 0 0 with phase := .halted, cause := .inEmpty }

/-- The next state has this property. -/
def goesTo (o : Host.Outcome State Fault Refusal) (p : State → Bool) : Bool :=
  match o with
  | .next t => p t
  | .fault _ => false
  | .refused _ => false

/-! One step of each instruction. -/

/-- S4, token step 1: the refill, then `LIT 0x41`. -/
theorem test_ind_lit : goesTo (step (launchedOn [0x02, 0, 0, 0, 0x41, 0x0A, 0] 6)) (fun t =>
    t.ind = 2 ∧ t.bitPos = 0 ∧ t.inIdx = 5 ∧ t.outIdx = 1 ∧ t.outMem = [(0, 0x41)] ∧ t.phase = .run) = true := by
  decide

/-- V4: three bytes are no indicator word. -/
theorem test_ind_short : goesTo (step (launchedOn [0, 0, 0] 8)) (fun t =>
    t.phase = .halted ∧ t.cause = .refillShort ∧ t.inIdx = 0 ∧ t.bitPos = 31) = true := by decide

/-- V5: the refill stands, the literal has no byte. -/
theorem test_lit_short : goesTo (step (launchedOn [0, 0, 0, 0] 8)) (fun t =>
    t.phase = .halted ∧ t.cause = .litShort ∧ t.inIdx = 4 ∧ t.bitPos = 0) = true := by decide

/-- V24: `M1 off=63` consumes one byte. -/
theorem test_m1 : goesTo (step (under [2, 0, 0, 0, 0x41, 0xFC, 0x99] 5 [0x41] 16 2 0)) (fun t =>
    t.phase = .copy ∧ t.mLen = 3 ∧ t.mOff = 63 ∧ t.cnt = 3 ∧ t.inIdx = 6 ∧ t.bitPos = 1) = true := by decide

/-- V9: `M1` as the last byte is not performed. -/
theorem test_m1_last : goesTo (step (under [16, 0, 0, 0, 1, 2, 3, 4, 0x0C] 8 [1, 2, 3, 4] 16 16 3)) (fun t =>
    t.phase = .halted ∧ t.cause = .tokenShort ∧ t.inIdx = 8 ∧ t.outIdx = 4 ∧ t.bitPos = 4) = true := by decide

/-- S4, token step 2: `M2 len=5 off=0`. -/
theorem test_m2 : goesTo (step (under [2, 0, 0, 0, 0x41, 0x0A, 0] 5 [0x41] 6 2 0)) (fun t =>
    t.phase = .copy ∧ t.mLen = 5 ∧ t.mOff = 0 ∧ t.cnt = 5 ∧ t.inIdx = 7) = true := by decide

/-- V14: `M3 off=64`. -/
theorem test_m3 : goesTo (step (under [8, 0, 0, 0, 1, 2, 3, 1, 1] 7 [1, 2, 3] 32 8 2)) (fun t =>
    t.phase = .copy ∧ t.mLen = 3 ∧ t.mOff = 64 ∧ t.inIdx = 9) = true := by decide

/-- V19: `M4` bytes `07 00 00 01`. -/
theorem test_m4 : goesTo (step (under [2, 0, 0, 0, 0x41, 7, 0, 0, 1] 5 [0x41] 64 2 0)) (fun t =>
    t.phase = .copy ∧ t.mLen = 35 ∧ t.mOff = 8192 ∧ t.inIdx = 9) = true := by decide

/-- V29: three of the four bytes of an `M4`; nothing consumed. -/
theorem test_m4_short : goesTo (step (under [2, 0, 0, 0, 0x41, 0x17, 0, 0] 5 [0x41] 16 2 0)) (fun t =>
    t.phase = .halted ∧ t.cause = .tokenShort ∧ t.inIdx = 5) = true := by decide

/-- V18: `M5 len=4 off=8`, three bytes of the four there. -/
theorem test_m5 : goesTo (step (under [4, 0, 0, 0, 0x41, 0x42, 0x0B, 8, 0, 0] 6 [0x41, 0x42] 32 4 1)) (fun t =>
    t.phase = .copy ∧ t.mLen = 4 ∧ t.mOff = 8 ∧ t.inIdx = 9) = true := by decide

/-- V27: two of the three bytes of an `M5`. -/
theorem test_m5_short : goesTo (step (under [2, 0, 0, 0, 0x41, 0x13, 0] 5 [0x41] 16 2 0)) (fun t =>
    t.phase = .halted ∧ t.cause = .tokenShort ∧ t.inIdx = 5) = true := by decide

/-- V22: both guards fail, OUT_FULL is recorded. -/
theorem test_guard_order : goesTo (step (under [0, 0, 0, 0, 0, 0xFF, 0x80] 7 [0, 0xFF, 0x80] 3 0 2)) (fun t =>
    t.phase = .halted ∧ t.cause = .outFull ∧ t.bitPos = 2) = true := by decide

/-- V12: the farthest reference there is, `src = 0`; V12a: one farther. -/
theorem test_copy_source : goesTo (step (copying [1, 2] 16 3 1 3)) (fun t =>
    t.phase = .copy ∧ t.cnt = 2 ∧ t.outIdx = 3 ∧ t.outMem = [(0, 1), (1, 2), (2, 1)]) = true ∧
    goesTo (step (copying [1, 2] 16 3 2 3)) (fun t =>
      t.phase = .halted ∧ t.cause = .srcUnderflow ∧ t.outIdx = 2) = true := by decide

/-- V7e: the copy is cut at the capacity; V7: its last byte returns to the main loop. -/
theorem test_copy_ends : goesTo (step (copying [0x41, 0x41, 0x41, 0x41] 4 5 0 2)) (fun t =>
    t.phase = .halted ∧ t.cause = .outFullCopy ∧ t.outIdx = 4) = true ∧
    goesTo (step (copying [0x41, 0x41, 0x41, 0x41, 0x41] 6 5 0 1)) (fun t =>
      t.phase = .run ∧ t.cnt = 0 ∧ t.outIdx = 6) = true := by decide

/-- R126, R20: the codes. -/
theorem test_codes : causeCode .outFullCopy = 7 ∧ causeCode .litShort = 4 ∧ phaseCode .halted = 3 ∧
    phaseCode .copy = 2 := by decide

/-! Opcode-table words. -/

/-- Words in full; the match rows by their lead byte alone. -/
theorem test_table_words : decodeTableWord 8 0xFC = some (.m1 63) ∧ decodeTableWord 16 0x007E = some (.m2 18 1) ∧
    decodeTableWord 16 0x0101 = some (.m3 64) ∧ decodeTableWord 32 0x01000007 = some (.m4 35 8192 0) ∧
    decodeTableWord 24 0x123403 = some (.m5 3 4660) ∧ decodeTableWord 32 0x80000002 = some (.ind 0x80000002) ∧
    decodeTableWord 0 0 = some (.lit 0) ∧ decodeTableWord 24 0 = none := by decide

theorem test_table_lead_bytes : decodeTableWord 8 2 = some (.m2 3 0) ∧ decodeTableWord 8 1 = some (.m3 0) ∧
    decodeTableWord 8 7 = some (.m4 3 0 0) ∧ decodeTableWord 8 3 = some (.m5 3 0) ∧
    decodeTableWord 8 0 = some (.m1 0) := by decide

/-- The first step after a word is placed runs it, a match token to its copy. -/
theorem test_placed_matches : goesTo (step (State.reset.withFetchWord 8 0xFC)) (fun t =>
      t.phase = .copy ∧ t.mOff = 63 ∧ t.inIdx = 1) = true ∧
    goesTo (step (State.reset.withFetchWord 8 2)) (fun t =>
      t.phase = .copy ∧ t.mLen = 3 ∧ t.mOff = 0 ∧ t.inIdx = 2) = true ∧
    goesTo (step (State.reset.withFetchWord 16 0x0101)) (fun t =>
      t.phase = .copy ∧ t.mLen = 3 ∧ t.mOff = 64 ∧ t.inIdx = 2) = true ∧
    goesTo (step (State.reset.withFetchWord 32 0x01000007)) (fun t =>
      t.phase = .copy ∧ t.mLen = 35 ∧ t.mOff = 8192 ∧ t.inIdx = 4) = true ∧
    goesTo (step (State.reset.withFetchWord 24 0x123403)) (fun t =>
      t.phase = .copy ∧ t.mOff = 4660 ∧ t.inIdx = 3) = true := by decide

/-- A literal writes its byte; the indicator word is loaded, and the token of the same step finds no byte. -/
theorem test_placed_others : goesTo (step (State.reset.withFetchWord 0 0)) (fun t =>
      t.phase = .run ∧ t.outMem = [(0, 0)] ∧ t.inIdx = 1) = true ∧
    goesTo (step (State.reset.withFetchWord 32 0x80000002)) (fun t =>
      t.ind = 0x80000002 ∧ t.bitPos = 0 ∧ t.inIdx = 4 ∧ t.cause = .litShort) = true := by decide

/-! Witnesses: reset and the host. -/

theorem witness_HardResetEntersIdle : { finished [1] with host := [.hardReset] }.host = .hardReset :: [] ∧
    { copying [1] 4 3 0 3 with host := [.hardReset, .engineTurn] }.host = .hardReset :: [.engineTurn] := by decide

/-- START written with 1 in IDLE and HALTED, with 1 in RUN and COPY, and with 0. -/
theorem witness_StartBeginsADecode :
    ({ State.reset with host := [.writeStart 1] }.host = .writeStart 1 :: [] ∧ State.reset.phase = .idle) ∧
    ({ finished [1] with host := [.writeStart 1] }.host = .writeStart 1 :: [] ∧ (finished [1]).phase = .halted) ∧
    ({ launchedOn [0] 4 with host := [.writeStart 1] }.host = .writeStart 1 :: [] ∧ (launchedOn [0] 4).phase = .run) ∧
    ({ copying [1] 4 3 0 3 with host := [.writeStart 1] }.host = .writeStart 1 :: [] ∧
      (copying [1] 4 3 0 3).phase = .copy) ∧
    { finished [1] with host := [.writeStart 0] }.host = .writeStart 0 :: [] := by decide

theorem witness_ParametersHoldWhatIsWritten :
    ({ State.reset with host := [.writeInLen 0xFFFFFFFF] }.host = .writeInLen 0xFFFFFFFF :: [] ∧
      State.reset.phase = .idle) ∧
    ({ finished [1] with host := [.writeOutCap 0] }.host = .writeOutCap 0 :: [] ∧ (finished [1]).phase = .halted) ∧
    ({ launchedOn [0] 4 with host := [.writeInLen 1] }.host = .writeInLen 1 :: [] ∧
      (launchedOn [0] 4).phase = .run) ∧
    ({ copying [1] 4 3 0 3 with host := [.writeOutCap 1] }.host = .writeOutCap 1 :: [] ∧
      (copying [1] 4 3 0 3).phase = .copy) := by decide

theorem witness_StoredInputByteIsThere :
    ({ State.reset with host := [.storeIn 0 7] }.host = .storeIn 0 7 :: [] ∧ State.reset.phase = .idle) ∧
    ({ finished [1] with host := [.storeIn 0xFFFFFFFF 7] }.host = .storeIn 0xFFFFFFFF 7 :: [] ∧
      (finished [1]).phase = .halted) := by decide

/-- Each clause; of `OUT` the last byte of the result. -/
theorem witness_HostReadsReturnTheResult :
    { copying [1] 4 3 0 3 with host := [.readReg .state] }.host = .readReg .state :: [] ∧
    ({ finished [1] with host := [.readReg .outLen] }.host = .readReg .outLen :: [] ∧ (finished [1]).phase = .halted) ∧
    ({ finished [1, 2] with host := [.readOut 1] }.host = .readOut 1 :: [] ∧ (finished [1, 2]).phase = .halted ∧
      (1 : Word) < (finished [1, 2]).outIdx) ∧
    ({ State.reset with host := [.readReg .inLen] }.host = .readReg .inLen :: [] ∧ State.reset.phase = .idle) ∧
    ({ finished [1] with host := [.readReg .outCap] }.host = .readReg .outCap :: [] ∧ (finished [1]).phase = .halted) := by
  decide

theorem witness_HostReadsChangeNothingElse : ∃ (s : State) (rest : List HostEvent) (e : HostEvent),
    s.host = e :: rest ∧ ((∃ r, e = .readReg r) ∨ ∃ a, e = .readOut a) :=
  ⟨{ launchedOn [0] 4 with host := [.readReg .outLen] }, [], _, rfl, .inl ⟨_, rfl⟩⟩

theorem witness_HostReadsChangeNothingElse_out : ∃ (s : State) (rest : List HostEvent) (e : HostEvent),
    s.host = e :: rest ∧ ((∃ r, e = .readReg r) ∨ ∃ a, e = .readOut a) :=
  ⟨{ finished [1] with host := [.readOut 1] }, [], _, rfl, .inr ⟨_, rfl⟩⟩

theorem witness_EngineMovesWhenItIsItsTurn : (launchedOn [0] 4).host = [] ∧
    { launchedOn [0] 4 with host := [.engineTurn] }.host = .engineTurn :: [] := by decide

/-- Both ways a step can end. -/
theorem witness_StepStopsOnlyOnBusyHostWrite : (∃ t, step (launchedOn [0] 4) = .next t) ∧
    step { launchedOn [0] 4 with host := [.storeOut 0 0] } = .refused .hostWriteWhileBusy := ⟨⟨_, rfl⟩, rfl⟩

/-! Witnesses: the token step. -/

theorem witness_LoopGuardTestsOutputFirst :
    ((under [0] 0 [1] 1 0 0).host = [] ∧ (under [0] 0 [1] 1 0 0).phase = .run ∧
      (under [0] 0 [1] 1 0 0).outCap ≤ (under [0] 0 [1] 1 0 0).outIdx) ∧
    ((under [0] 1 [1] 2 0 0).outIdx < (under [0] 1 [1] 2 0 0).outCap ∧
      (under [0] 1 [1] 2 0 0).inLen ≤ (under [0] 1 [1] 2 0 0).inIdx) ∧
    ((under [0] 0 [1] 2 0 0).outIdx < (under [0] 0 [1] 2 0 0).outCap ∧
      (under [0] 0 [1] 2 0 0).inIdx < (under [0] 0 [1] 2 0 0).inLen) := by decide

/-- Three bytes, four bytes, and a position without a refill. -/
theorem witness_RefillAtPositionThirtyOne :
    (let s := launchedOn [0, 0, 0] 1
     s.host = [] ∧ s.phase = .run ∧ s.outIdx < s.outCap ∧ s.inIdx < s.inLen ∧ s.bitPos = 30 ∧ remaining s = 3) ∧
    (let s := launchedOn [0, 0, 0, 0] 1
     s.host = [] ∧ s.phase = .run ∧ s.outIdx < s.outCap ∧ s.inIdx < s.inLen ∧ s.bitPos = 30 ∧ remaining s = 4) ∧
    (let s := under [0] 0 [] 1 0 29
     s.host = [] ∧ s.phase = .run ∧ s.outIdx < s.outCap ∧ s.inIdx < s.inLen ∧ s.bitPos.toNat < 30) := by decide

theorem witness_ControlBitSelectsTheToken :
    (let s := under [0] 0 [] 1 0x3FFFFFFF 30
     (s.ind.toNat >>> s.bitPos.toNat) &&& 1 = 0) ∧
    (let s := under [0] 0 [] 1 0x40000000 30
     (s.ind.toNat >>> s.bitPos.toNat) &&& 1 = 1) := by decide

/-- With a refill and a literal; without a refill and with a match token; without the bytes. -/
theorem witness_StepRunsTheDecodedInstruction :
    (let s := launchedOn [0, 0, 0, 0, 7] 1
     s.host = [] ∧ s.phase = .run ∧ s.outIdx < s.outCap ∧ s.inIdx < s.inLen ∧ s.bitPos = 30 ∧ 4 ≤ remaining s ∧
       decode (tokenSlot (tokenState s)) (inputWindow (tokenState s)) = .element (.lit 7)) ∧
    (let s := under [0x0C, 0] 0 [] 1 1 31
     s.host = [] ∧ s.phase = .run ∧ s.outIdx < s.outCap ∧ s.inIdx < s.inLen ∧ s.bitPos ≠ 30 ∧
       decode (tokenSlot (tokenState s)) (inputWindow (tokenState s)) = .element (.m1 3)) ∧
    (let s := launchedOn [0, 0, 0, 0] 1
     s.host = [] ∧ s.phase = .run ∧ s.outIdx < s.outCap ∧ s.inIdx < s.inLen ∧ s.bitPos = 30 ∧ 4 ≤ remaining s ∧
       decode (tokenSlot (tokenState s)) (inputWindow (tokenState s)) = .short .literal) := by decide

/-! Witnesses: the instructions. -/

theorem witness_IndLoadsItsWord : 4 ≤ remaining (launchedOn [0, 0, 0, 0] 1) ∧ remaining (launchedOn [0, 0, 0] 1) < 4 := by
  decide

theorem witness_LiteralCopiesOneByte :
    (let s := under [7] 0 [] 1 0 0
     s.outIdx < s.outCap ∧ 1 ≤ remaining s) ∧
    (let s := under [7] 1 [] 1 0 0
     s.outIdx < s.outCap ∧ remaining s = 0) := by decide

theorem witness_LitWritesItsByte :
    (1 ≤ remaining (under [7] 0 [] 1 0 0) ∧ (under [7] 0 [] 1 0 0).outIdx < (under [7] 0 [] 1 0 0).outCap) ∧
    remaining (under [7] 1 [] 1 0 0) = 0 ∧
    (1 ≤ remaining (under [7] 0 [1] 1 0 0) ∧ (under [7] 0 [1] 1 0 0).outCap ≤ (under [7] 0 [1] 1 0 0).outIdx) := by
  decide

theorem witness_LeadByteSelectsTheShape : (0xFC : Byte).toNat &&& 3 = 0 ∧ (0xFE : Byte).toNat &&& 3 = 2 ∧
    (0xFD : Byte).toNat &&& 3 = 1 ∧ (0x0F : Byte).toNat &&& 7 = 7 ∧
    ((0x0B : Byte).toNat &&& 3 = 3 ∧ (0x0B : Byte).toNat &&& 7 ≠ 7) ∧
    decode .matchToken [0xFF, 0, 0, 0] = .element (.m4 34 0 0) := by decide

theorem witness_ShapeM1TakesOneByte : ∃ s, 2 ≤ remaining s ∧ nextByte s 0 &&& 3 = 0 :=
  ⟨under [0xFC, 0] 0 [] 1 1 0, by decide⟩

theorem witness_ShapeM2TakesTwoBytes : ∃ s, 2 ≤ remaining s ∧ nextByte s 0 &&& 3 = 2 :=
  ⟨under [0xFE, 0xFF] 0 [] 1 1 0, by decide⟩

theorem witness_ShapeM3TakesTwoBytes : ∃ s, 2 ≤ remaining s ∧ nextByte s 0 &&& 3 = 1 :=
  ⟨under [0xFD, 0xFF] 0 [] 1 1 0, by decide⟩

theorem witness_ShapeM4TakesFourBytes : ∃ s, 4 ≤ remaining s ∧ nextByte s 0 &&& 7 = 7 :=
  ⟨under [0xFF, 0xFF, 0xFF, 0xFF] 0 [] 1 0x40000000 30, by decide⟩

theorem witness_ShapeM5TakesThreeBytes :
    ∃ s, 3 ≤ remaining s ∧ nextByte s 0 &&& 3 = 3 ∧ nextByte s 0 &&& 7 ≠ 7 :=
  ⟨under [0xFB, 0xFF, 0xFF] 0 [] 1 1 0, by decide⟩

/-- An `M4` with three bytes, an `M5` with two. -/
theorem witness_ShapeCutShortHalts :
    (∃ s, 2 ≤ remaining s ∧ remaining s = 3 ∧ remaining s < refSize (nextByte s 0)) ∧
    ∃ s, 2 ≤ remaining s ∧ remaining s = 2 ∧ remaining s < refSize (nextByte s 0) :=
  ⟨⟨under [0xFF, 0, 0] 0 [] 1 1 0, by decide⟩, ⟨under [0xFB, 0] 0 [] 1 1 0, by decide⟩⟩

theorem witness_MatchNeedsTwoBytes : ∃ s, remaining s = 1 ∧ nextByte s 0 = 0 :=
  ⟨under [0] 0 [] 1 1 0, by decide⟩

theorem witness_MatchTokensLatchAndConsume : remaining (under [0, 0] 0 [] 1 1 0) = 2 ∧
    remaining (under [3, 0, 0] 0 [] 1 1 0) = 3 ∧ remaining (under [7, 0, 0, 0] 0 [] 1 1 0) = 4 := by decide

theorem witness_MatchTokensHaltWithoutTheirBytes : (Instr.m1 0).slot = .matchToken ∧
    remaining (under [0] 0 [] 1 1 0) < 2 ∧ (Instr.m4 3 0 0).slot = .matchToken ∧
    remaining (under [7, 0, 0] 0 [] 1 1 0) < (Instr.m4 3 0 0).size := by decide

theorem witness_IndFrame : (∃ t, exec (.ind 5) (launchedOn [5, 0, 0, 0] 1) = .next t ∧ t.ind = 5) ∧
    ∃ t, exec (.ind 5) (launchedOn [5, 0, 0] 1) = .next t ∧ t.phase = .halted :=
  ⟨⟨_, rfl, by decide⟩, ⟨_, rfl, by decide⟩⟩

theorem witness_MatchFrame : (Instr.m2 3 0).slot = .matchToken ∧
    (∃ t, exec (.m2 3 0) (under [2, 0] 0 [] 1 1 0) = .next t ∧ t.phase = .copy) ∧
    ∃ t, exec (.m2 3 0) (under [2] 0 [] 1 1 0) = .next t ∧ t.phase = .halted :=
  ⟨rfl, ⟨_, rfl, by decide⟩, ⟨_, rfl, by decide⟩⟩

theorem witness_LitFrame : (∃ t, exec (.lit 5) (under [5] 0 [] 1 0 0) = .next t ∧ t.outIdx = 1) ∧
    ∃ t, exec (.lit 5) (under [5] 1 [] 1 0 0) = .next t ∧ t.phase = .halted :=
  ⟨⟨_, rfl, by decide⟩, ⟨_, rfl, by decide⟩⟩

/-! Witnesses: the copy. -/

/-- `src = -1`; `src = 0` with the output full; `src = 0` with the last free byte. -/
theorem witness_CopyStepCopiesOneByte :
    (let s := copying [1] 4 3 1 3
     s.host = [] ∧ s.phase = .copy ∧ s.cnt ≠ 0 ∧ (s.outIdx.toNat : Int) - s.mOff.toNat - 1 < 0) ∧
    (let s := copying [1] 1 3 0 1
     s.host = [] ∧ s.phase = .copy ∧ s.cnt ≠ 0 ∧ 0 ≤ (s.outIdx.toNat : Int) - s.mOff.toNat - 1 ∧
       s.outCap ≤ s.outIdx) ∧
    (let s := copying [1] 2 3 0 1
     s.host = [] ∧ s.phase = .copy ∧ s.cnt ≠ 0 ∧ 0 ≤ (s.outIdx.toNat : Int) - s.mOff.toNat - 1 ∧
       s.outIdx < s.outCap) := by decide

theorem witness_CopyArithmeticDoesNotWrap : copySource (copying [1] 2 3 1 1) < 0 ∧ 0 ≤ copySource (copying [1] 2 3 0 1) ∧
    (copying [1] 2 3 0 1).outIdx < (copying [1] 2 3 0 1).outCap ∧ (copying [1] 2 3 0 1).cnt ≠ 0 := by decide

theorem witness_CopyFrame : (copying [1] 2 3 0 1).host = [] ∧ (copying [1] 2 3 0 1).phase = .copy ∧
    ∃ t, step (copying [1] 2 3 0 1) = .next t := ⟨rfl, rfl, _, rfl⟩

theorem witness_CopySourceFollowsTheCursor : (copying [1] 2 3 0 2).host = [] ∧ (copying [1] 2 3 0 2).phase = .copy ∧
    (copying [1] 2 3 0 2).cnt ≠ 0 ∧ ∃ t, step (copying [1] 2 3 0 2) = .next t ∧ t.phase = .copy :=
  ⟨rfl, rfl, by decide, _, rfl, rfl⟩

/-- A source before the output; a copy that fits exactly; one byte too few. -/
theorem witness_CopyClosedForm :
    (let s := copying [1] 4 3 1 3
     s.host = [] ∧ s.phase = .copy ∧ s.cnt ≠ 0 ∧ s.outIdx.toNat < s.mOff.toNat + 1) ∧
    (let s := copying [1] 4 3 0 3
     s.host = [] ∧ s.phase = .copy ∧ s.cnt ≠ 0 ∧ s.mOff.toNat + 1 ≤ s.outIdx.toNat ∧
       s.cnt.toNat ≤ s.outCap.toNat - s.outIdx.toNat) ∧
    (let s := copying [1] 3 3 0 3
     s.host = [] ∧ s.phase = .copy ∧ s.cnt ≠ 0 ∧ s.mOff.toNat + 1 ≤ s.outIdx.toNat ∧
       s.outCap.toNat - s.outIdx.toNat < s.cnt.toNat) := by decide

/-! Witnesses: halts. -/

theorem witness_HaltChangesNothingElse :
    (∃ s t, s.host = [] ∧ s.phase = .run ∧ step s = .next t ∧ t.phase = .halted) ∧
    ∃ s t, s.host = [] ∧ s.phase = .copy ∧ step s = .next t ∧ t.phase = .halted :=
  ⟨⟨launchedOn [0, 0, 0, 0] 1, _, rfl, rfl, rfl, by decide⟩, ⟨copying [1] 4 3 1 3, _, rfl, rfl, rfl, by decide⟩⟩

/-- START and hardware reset, the two ways out. -/
theorem witness_HaltedIsTerminal :
    (∃ t, (finished [1]).phase = .halted ∧ step { finished [1] with host := [.writeStart 1] } = .next t ∧
      t.phase ≠ .halted) ∧
    ∃ t, step { finished [1] with host := [.hardReset] } = .next t ∧ t.phase ≠ .halted :=
  ⟨⟨_, rfl, rfl, by decide⟩, ⟨_, rfl, by decide⟩⟩

/-- The engine left alone, a host store to `IN`, and START with 0. -/
theorem witness_ResultStaysUntilStart :
    (∃ t, step (finished [1]) = .next t ∧ (finished [1]).host.head? ≠ some (.writeStart 1) ∧
      (finished [1]).host.head? ≠ some .hardReset) ∧
    (∃ t, step { finished [1] with host := [.storeIn 0 9] } = .next t ∧
      { finished [1] with host := [.storeIn 0 9] }.host.head? ≠ some (.writeStart 1)) ∧
    ∃ t, step { finished [1] with host := [.writeStart 0] } = .next t ∧
      { finished [1] with host := [.writeStart 0] }.host.head? ≠ some (.writeStart 1) :=
  ⟨⟨_, rfl, by decide, by decide⟩, ⟨_, rfl, by decide⟩, ⟨_, rfl, by decide⟩⟩

theorem witness_EnginePhaseTransitions : (∃ t, step State.reset = .next t) ∧ (∃ t, step (finished [1]) = .next t) ∧
    (∃ t, step (launchedOn [0, 0, 0, 0, 7] 1) = .next t ∧ t.phase = .run) ∧
    (∃ t, step (copying [1] 4 3 0 1) = .next t ∧ t.phase = .run) ∧
    ∃ t, step (copying [1] 4 3 0 2) = .next t ∧ t.phase = .copy :=
  ⟨⟨_, rfl⟩, ⟨_, rfl⟩, ⟨_, rfl, by decide⟩, ⟨_, rfl, by decide⟩, ⟨_, rfl, by decide⟩⟩

/-! Witnesses: invariants. -/

theorem inv_run (s : State) (h1 : Memory.wf s.inMem = true) (h2 : Memory.wf s.outMem = true) (hp : s.phase = .run)
    (hb : DecodeBounds s) : EngineInv s :=
  ⟨h1, h2, fun h => by simp [hp] at h, fun _ => hb, fun h => by simp [hp] at h, fun h => by simp [hp] at h⟩

theorem inv_copy (s : State) (h1 : Memory.wf s.inMem = true) (h2 : Memory.wf s.outMem = true) (hp : s.phase = .copy)
    (hb : DecodeBounds s) (hc : CopyBounds s) : EngineInv s :=
  ⟨h1, h2, fun h => by simp [hp] at h, fun h => by simp [hp] at h, fun _ => ⟨hb, hc⟩, fun h => by simp [hp] at h⟩

/-- RUN, with the indices at their limits. -/
theorem witness_inv_run : EngineInv (under [0] 1 [1] 1 0 30) :=
  inv_run _ (by decide) (by decide) rfl ⟨by decide, by decide, by decide, by decide, by decide⟩

/-- COPY, at its first byte with one byte of room. -/
theorem witness_inv_copy : EngineInv (copying [1] 2 3 1 3) :=
  inv_copy _ (by decide) (by decide) rfl ⟨by decide, by decide, by decide, by decide, by decide⟩
    ⟨by decide, by decide, by decide, by decide, by decide, by decide⟩

/-- COPY, after its first byte with the output full. -/
theorem witness_inv_copy_full : EngineInv (copying [1] 1 3 0 2) :=
  inv_copy _ (by decide) (by decide) rfl ⟨by decide, by decide, by decide, by decide, by decide⟩
    ⟨by decide, by decide, by decide, by decide, by decide, by decide⟩

theorem witness_inv_halted : EngineInv (finished [1]) :=
  ⟨by decide, by decide, fun h => (nomatch h), fun h => (nomatch h), fun h => (nomatch h), fun _ => by decide⟩

/-- Halts from RUN (causes 1 to 5) and from COPY (causes 6 and 7). -/
theorem witness_EachCauseHasItsCondition :
    (∃ t, EngineInv (under [0] 1 [1] 1 0 30) ∧ step (under [0] 1 [1] 1 0 30) = .next t ∧ t.phase = .halted ∧
      t.cause = .outFull) ∧
    (∃ t, EngineInv (copying [1] 2 3 1 3) ∧ step (copying [1] 2 3 1 3) = .next t ∧ t.phase = .halted ∧
      t.cause = .srcUnderflow) ∧
    ∃ t, EngineInv (copying [1] 1 3 0 2) ∧ step (copying [1] 1 3 0 2) = .next t ∧ t.phase = .halted ∧
      t.cause = .outFullCopy :=
  ⟨⟨_, witness_inv_run, rfl, by decide⟩, ⟨_, witness_inv_copy, rfl, by decide⟩,
    ⟨_, witness_inv_copy_full, rfl, by decide⟩⟩

theorem witness_inv_launched (bytes : List Byte) (h : bytes = [0, 0, 0, 0] ∨ bytes = [1, 0, 0, 0, 0] ∨ bytes = [0, 0, 0]) :
    EngineInv (launchedOn bytes 1) := by
  rcases h with rfl | rfl | rfl <;>
    exact inv_run _ (by decide) (by decide) rfl ⟨by decide, by decide, by decide, by decide, by decide⟩

/-- Causes 2 to 5. -/
theorem witness_EachCauseHasItsCondition_short :
    (∃ t, EngineInv (under [0] 1 [1] 2 0 30) ∧ step (under [0] 1 [1] 2 0 30) = .next t ∧ t.cause = .inEmpty) ∧
    (∃ t, EngineInv (launchedOn [0, 0, 0] 1) ∧ step (launchedOn [0, 0, 0] 1) = .next t ∧ t.cause = .refillShort) ∧
    (∃ t, EngineInv (launchedOn [0, 0, 0, 0] 1) ∧ step (launchedOn [0, 0, 0, 0] 1) = .next t ∧
      t.cause = .litShort) ∧
    ∃ t, EngineInv (launchedOn [1, 0, 0, 0, 0] 1) ∧ step (launchedOn [1, 0, 0, 0, 0] 1) = .next t ∧
      t.cause = .tokenShort :=
  ⟨⟨_, inv_run _ (by decide) (by decide) rfl ⟨by decide, by decide, by decide, by decide, by decide⟩, rfl, by decide⟩,
    ⟨_, witness_inv_launched _ (by decide), rfl, by decide⟩, ⟨_, witness_inv_launched _ (by decide), rfl, by decide⟩,
    ⟨_, witness_inv_launched _ (by decide), rfl, by decide⟩⟩

/-- A complete halt, by cause 7, and an incomplete one. -/
theorem witness_CompleteExactlyWhenOutputFilled :
    (∃ t, EngineInv (copying [1] 1 3 0 2) ∧ step (copying [1] 1 3 0 2) = .next t ∧ t.phase = .halted ∧
      t.outIdx = t.outCap) ∧
    ∃ t, EngineInv (copying [1] 2 3 1 3) ∧ step (copying [1] 2 3 1 3) = .next t ∧ t.phase = .halted ∧
      t.outIdx ≠ t.outCap :=
  ⟨⟨_, witness_inv_copy_full, rfl, by decide⟩, ⟨_, witness_inv_copy, rfl, by decide⟩⟩

theorem witness_StepKeepsInvariant : (∃ t, EngineInv (finished [1]) ∧ step (finished [1]) = .next t) ∧
    ∃ t, EngineInv (copying [1] 2 3 1 3) ∧ step (copying [1] 2 3 1 3) = .next t :=
  ⟨⟨_, witness_inv_halted, rfl⟩, ⟨_, witness_inv_copy, rfl⟩⟩

/-- Without a halt, and with one. -/
theorem witness_IndicesStayInBounds :
    (∃ t, EngineInv (copying [1] 2 3 0 3) ∧ step (copying [1] 2 3 0 3) = .next t ∧ t.phase = .copy) ∧
    ∃ t, EngineInv (under [0] 1 [1] 1 0 30) ∧ step (under [0] 1 [1] 1 0 30) = .next t ∧ t.phase = .halted :=
  ⟨⟨_, inv_copy _ (by decide) (by decide) rfl ⟨by decide, by decide, by decide, by decide, by decide⟩
      ⟨by decide, by decide, by decide, by decide, by decide, by decide⟩, rfl, by decide⟩,
    ⟨_, witness_inv_run, rfl, by decide⟩⟩

theorem witness_OutputIsWrittenOnceInOrder :
    (∃ t, step (copying [1] 2 3 0 3) = .next t ∧ t.outIdx = 2) ∧ ∃ t, step State.reset = .next t ∧ t.outIdx = 0 :=
  ⟨⟨_, rfl, by decide⟩, ⟨_, rfl, by decide⟩⟩

theorem witness_EngineLeavesItsInputAlone : ∃ t, (launchedOn [0, 0, 0, 0, 7] 1).host = [] ∧
    step (launchedOn [0, 0, 0, 0, 7] 1) = .next t := ⟨_, rfl, rfl⟩

/-- The most a token step consumes: a refill and an `M4`; the least: a literal; and a copy step. -/
theorem witness_EveryStepMakesProgress :
    (∃ t, step (launchedOn [1, 0, 0, 0, 7, 0, 0, 0] 1) = .next t ∧ t.phase = .copy ∧ t.inIdx = 8) ∧
    (∃ t, step (under [7] 0 [] 1 0 0) = .next t ∧ t.phase = .run ∧ t.inIdx = 1) ∧
    ∃ t, step (copying [1] 2 3 0 1) = .next t ∧ t.phase = .run ∧ (copying [1] 2 3 0 1).cnt ≠ 0 :=
  ⟨⟨_, rfl, by decide⟩, ⟨_, rfl, by decide⟩, ⟨_, rfl, by decide⟩⟩

theorem witness_ControlBitsCycleThroughThirtyOne :
    (∃ t, step (launchedOn [0, 0, 0, 0, 7] 1) = .next t ∧ t.phase ≠ .halted ∧
      (launchedOn [0, 0, 0, 0, 7] 1).bitPos.toNat ≤ 30 ∧ t.bitPos = 0) ∧
    (∃ t, step (under [7] 0 [] 1 0 29) = .next t ∧ t.phase ≠ .halted ∧ t.bitPos = 30) ∧
    ∃ t, step (copying [1] 2 3 0 1) = .next t ∧ t.phase ≠ .halted ∧ (copying [1] 2 3 0 1).phase = .copy :=
  ⟨⟨_, rfl, by decide⟩, ⟨_, rfl, by decide⟩, ⟨_, rfl, by decide⟩⟩

/-! Witnesses: whole decodes. -/

theorem launchedOn_launched (bytes : List Byte) (cap : Word) (hl : bytes.length < 2 ^ 32)
    (hm : ∀ k, k < bytes.length → Memory.read (listed bytes) k = bytes[k]?) :
    Launched bytes cap (launchedOn bytes cap) :=
  ⟨rfl, rfl, rfl, rfl, rfl, by simp [launchedOn]; exact hl, rfl, hm, rfl⟩

/-- The payload of V7, with its capacity. -/
theorem witness_Launched : Launched [0x02, 0, 0, 0, 0x41, 0x0A, 0] 6 (launchedOn [0x02, 0, 0, 0, 0x41, 0x0A, 0] 6) :=
  launchedOn_launched _ _ (by decide) (by decide)

/-- The set-up of V7 from IDLE. -/
theorem witness_SetUpLaunchesTheDecode : ∃ (payload : List Byte) (cap : Word) (s : State),
    payload.length < 2 ^ 32 ∧ s.phase = .idle ∧ s.host = setUpEvents payload cap ∧ payload.length = 7 :=
  ⟨[0x02, 0, 0, 0, 0x41, 0x0A, 0], 6, { State.reset with host := setUpEvents [0x02, 0, 0, 0, 0x41, 0x0A, 0] 6 },
    by decide, rfl, rfl, rfl⟩

/-- Also the premise of EngineComputesTheReferenceDecode. -/
theorem witness_EveryDecodeTerminates : ∃ payload cap s, Launched payload cap s ∧ 0 < payload.length ∧ 0 < cap.toNat :=
  ⟨_, _, _, witness_Launched, by decide, by decide⟩

theorem witness_EngineComputesTheReferenceDecode : ∃ payload cap s, Launched payload cap s ∧
    (refDecode payload cap.toNat).out = [0x41, 0x41, 0x41, 0x41, 0x41, 0x41] :=
  ⟨_, _, _, witness_Launched, by decide⟩

/-- Capacity 0; four bytes; a match first. -/
theorem witness_EmptyResults :
    Launched [0, 0, 0, 0, 7] 0 (launchedOn [0, 0, 0, 0, 7] 0) ∧ Launched [0, 0, 0, 0] 8 (launchedOn [0, 0, 0, 0] 8) ∧
    (Launched [1, 0, 0, 0, 0, 0] 8 (launchedOn [1, 0, 0, 0, 0, 0] 8) ∧
      ∃ b0, ([1, 0, 0, 0, 0, 0] : List Byte)[0]? = some b0 ∧ b0.toNat % 2 = 1) :=
  ⟨launchedOn_launched _ _ (by decide) (by decide), launchedOn_launched _ _ (by decide) (by decide),
    launchedOn_launched _ _ (by decide) (by decide), 1, rfl, by decide⟩

theorem witness_TruncationGivesAPrefix : ∃ (payload : List Byte) (k : Nat) (cap : Word) (s s' : State),
    Launched payload cap s ∧ Launched (payload.take k) cap s' ∧ k < payload.length :=
  ⟨[0x02, 0, 0, 0, 0x41, 0x0A, 0], 5, 6, _, _, witness_Launched,
    launchedOn_launched [0x02, 0, 0, 0, 0x41] _ (by decide) (by decide), by decide⟩

theorem witness_CapacityCutsTheResult : ∃ (payload : List Byte) (cap cap' : Word) (s s' : State),
    cap' ≤ cap ∧ Launched payload cap s ∧ Launched payload cap' s' ∧ cap' = 4 :=
  ⟨_, 6, 4, _, _, by decide, witness_Launched, launchedOn_launched _ _ (by decide) (by decide), rfl⟩

/-- Two launched states of one payload that differ in `ind`, in the latches and in `OUT`. -/
theorem witness_DecodeIsAFunctionOfItsInput : ∃ (payload : List Byte) (cap : Word) (s s' : State),
    Launched payload cap s ∧ Launched payload cap s' ∧ s ≠ s' :=
  ⟨_, _, _, { launchedOn [0x02, 0, 0, 0, 0x41, 0x0A, 0] 6 with ind := 5, mLen := 7, outMem := [(0, 9)] },
    witness_Launched, ⟨rfl, rfl, rfl, rfl, rfl, rfl, rfl, by decide, rfl⟩, by decide⟩

/-! Witnesses: encodings. -/

/-- An `M4` with nothing after it, an `M1` with the one byte it needs. -/
theorem witness_DecodeOfEncode : Instr.wellFormed (.m4 258 2097151 7) = true ∧
    2 ≤ (encode (.m4 258 2097151 7) ++ []).length ∧ Instr.wellFormed (.m1 63) = true ∧
    (encode (.m1 63) ++ [0]).length = 2 := by decide

theorem witness_EncodeOfDecode : decode .matchToken [0xFF, 0xFF, 0xFF, 0xFF] = .element (.m4 258 2097151 7) ∧
    decode .indicator [1, 0, 0, 0] = .element (.ind 1) ∧ decode .literal [7] = .element (.lit 7) := by decide

theorem witness_IgnoredAndSharedBits : (under [0] 0 [] 1 0 30).bitPos.toNat ≤ 30 ∧
    ((0x07 : Byte).toNat &&& 7 = 7 ∧ (0xF8 : Byte).toNat >>> 3 = (0xFF : Byte).toNat >>> 3) ∧
    decode .matchToken [0x07, 0, 0, 7] = .element (.m4 227 57344 0) := by decide

end Sys2Proof.Tests
end

section
/-! PROOFS of the encoding family: the ignored bits and the bits used twice of R62. -/

namespace Sys2Proof.Machine

/-- The one bit of the mask, number 31, is not the one tested below position 31 (R62 a, R72). -/
theorem controlBit_flip_bit31 {s : State} (h : s.bitPos.toNat ≤ 30) :
    controlBit { s with ind := s.ind ^^^ 0x80000000#32 } = controlBit s := by
  have hpos : 31 ≠ s.bitPos.toNat := by omega
  have hmask : (0x80000000#32).getLsbD s.bitPos.toNat = false := by
    rw [show (0x80000000#32) = BitVec.twoPow 32 31 from rfl, BitVec.getLsbD_twoPow]
    simp [hpos]
  simp [controlBit, hmask]

/-- With the two bytes of the lookahead there, a match token is decoded by its shape (R90, R91). -/
theorem decode_matchToken_cons_cons (b0 b1 : Byte) (rest : List Byte) :
    decode .matchToken (b0 :: b1 :: rest) = decodeMatch b0 b1 rest := rfl

/-- A lead byte ending in `0b111` selects `M4` when its four bytes are there (R91, R97). -/
theorem decode_m4_of_leadByte {b0 : Byte} (b1 b2 b3 : Byte) (more : List Byte) (h : b0.toNat % 8 = 7) :
    decode .matchToken (b0 :: b1 :: b2 :: b3 :: more) =
      .element (.m4 (m4Len b0 b3) (m4Off b1 b2 b3) (b1.setWidth 3)) := by
  rw [decode_matchToken_cons_cons]
  rcases decodeMatch_cases b0 b1 (b2 :: b3 :: more) with
    ⟨-, h4⟩ | ⟨-, h4⟩ | ⟨-, h4⟩ | ⟨c2, c3, rest, hrest, -, hdec⟩ | ⟨hlen, -⟩ | ⟨_, _, -, h8, -⟩ | ⟨hnil, -⟩
  · omega
  · omega
  · omega
  · obtain ⟨rfl, rfl, rfl⟩ : b2 = c2 ∧ b3 = c3 ∧ more = rest := by simpa using hrest
    exact hdec
  · simp at hlen
  · omega
  · simp at hnil

/-- An `M4` that was decoded has its length and its offset from four bytes, `b3` entering both (R97, R62 c). -/
theorem fields_of_decode_m4 {bytes : List Byte} {len : BitVec 9} {off : BitVec 21} {x : BitVec 3}
    (h : decode .matchToken bytes = .element (.m4 len off x)) :
    ∃ b0 b1 b2 b3, len = m4Len b0 b3 ∧ off = m4Off b1 b2 b3 := by
  match bytes, h with
  | [], h => simp [decode] at h
  | [_], h => simp [decode] at h
  | b0 :: b1 :: rest, h =>
    rw [decode_matchToken_cons_cons] at h
    rcases decodeMatch_cases b0 b1 rest with
      ⟨hdec, -⟩ | ⟨hdec, -⟩ | ⟨hdec, -⟩ | ⟨b2, b3, _, -, -, hdec⟩ | ⟨-, -, hdec⟩ | ⟨_, _, -, -, hdec⟩ | ⟨-, -, hdec⟩
    · simp [hdec] at h
    · simp [hdec] at h
    · simp [hdec] at h
    · obtain ⟨rfl, rfl, -⟩ : m4Len b0 b3 = len ∧ m4Off b1 b2 b3 = off ∧ b1.setWidth 3 = x := by
        simpa [hdec] using h
      exact ⟨b0, b1, b2, b3, rfl, rfl⟩
    · simp [hdec] at h
    · simp [hdec] at h
    · simp [hdec] at h

/-- The offset of `M4` depends on `b1` only above its low three bits (R97, R62 b). -/
theorem m4Off_congr_b1 {b1 b1' : Byte} (b2 b3 : Byte) (h : b1.toNat >>> 3 = b1'.toNat >>> 3) :
    m4Off b1 b2 b3 = m4Off b1' b2 b3 := by
  simp only [Nat.shiftRight_eq_div_pow] at h
  apply BitVec.eq_of_toNat_eq
  rw [m4Off_toNat, m4Off_toNat]
  omega

/-- The ignored operand of `M4` has no effect (R62 b). -/
theorem exec_m4_ignored (len : BitVec 9) (off : BitVec 21) (x y : BitVec 3) (s : State) :
    exec (.m4 len off x) s = exec (.m4 len off y) s := rfl

/-- Bits 7:5 of an `M4` length less 3 and bits 15:13 of its offset are the same bits of `b3` (R62 c). -/
theorem m4_length_offset_tie (b0 b1 b2 b3 : Byte) :
    ((m4Len b0 b3).toNat - 3) >>> 5 = ((m4Off b1 b2 b3).toNat >>> 13) &&& 7 := by
  have h0 := b0.isLt
  have h1 := b1.isLt
  have h2 := b2.isLt
  have hlen : ((m4Len b0 b3).toNat - 3) / 2 ^ 5 = b3.toNat % 8 := by rw [m4Len_toNat]; omega
  have hoff : (m4Off b1 b2 b3).toNat / 2 ^ 13 = b3.toNat := by rw [m4Off_toNat]; omega
  rw [Nat.shiftRight_eq_div_pow, Nat.shiftRight_eq_div_pow, nat_and_seven, hlen, hoff]

/-- Settles O57: bit 31 is not the tested control bit (R62 a), `exec` reads of `b1` only what `m4Off` does (R62 b), and both
fields of a decoded `M4` hold the low bits of its `b3` (R62 c). -/
theorem ignoredAndSharedBits : Obligations.IgnoredAndSharedBits := by
  unfold Obligations.IgnoredAndSharedBits
  refine ⟨?bit31, ?ignored, ?shared⟩
  case bit31 =>
    intro s hpos
    rw [tokenSlot, tokenSlot, controlBit_flip_bit31 hpos]
  case ignored =>
    intro b0 b1 b1' b2 b3 s hlead hb1
    rw [nat_and_seven] at hlead
    refine ⟨_, _, decode_m4_of_leadByte b1 b2 b3 [] hlead, decode_m4_of_leadByte b1' b2 b3 [] hlead, ?_⟩
    rw [m4Off_congr_b1 b2 b3 hb1]
    exact exec_m4_ignored _ _ _ _ s
  case shared =>
    intro bytes len off x hdec
    obtain ⟨b0, b1, b2, b3, rfl, rfl⟩ := fields_of_decode_m4 hdec
    exact m4_length_offset_tie b0 b1 b2 b3

end Sys2Proof.Machine
end

section
/-! PROOFS of the indicator refill family: what a token step does with `bit_pos` once its loop guard has passed (R73, R74). -/

namespace Sys2Proof.Machine

open Sys2Proof.Safety

/-- With the engine alone and the loop guard passed, a step is the rest of the token step (R71, R78). -/
theorem step_of_guard {s : State} (hh : s.host = []) (hp : s.phase = .run) (ho : s.outIdx < s.outCap)
    (hi : s.inIdx < s.inLen) : step s = afterGuard s := by
  rw [step_alone hh, engineStep_run hp]
  simp [tokenStep, ho, hi]

/-- The refill falls short: `bit_pos` 31 reached with fewer than four bytes (R74). -/
theorem afterGuard_short {s : State} (hp : s.phase = .run) (hb : s.bitPos + 1 = 31) (hr : remaining s < 4) :
    afterGuard s = .next (raiseHalt .refillShort (advanceBit s)) := by
  rcases afterGuard_cases s hp with ⟨-, -, hshort⟩ | ⟨h4, -⟩
  · exact hshort
  · have := h4 hb
    omega

/-- Where no refill falls short, the token runs in the state the refill leaves (R73, R74). -/
theorem afterGuard_token {s : State} (hp : s.phase = .run) (h4 : s.bitPos + 1 = 31 → 4 ≤ remaining s) :
    afterGuard s = runToken (tokenState s) := by
  rcases afterGuard_cases s hp with ⟨hb, hr, -⟩ | ⟨-, htoken⟩
  · have := h4 hb
    omega
  · exact htoken

/-- IND with its four bytes remaining loads the word and consumes them (R74). -/
theorem exec_ind_loads (w : Word) {s : State} (h : 4 ≤ remaining s) :
    exec (.ind w) s = .next (consume 4 (loadIndicator w s)) := by
  rcases execInd_cases w s with ⟨-, hr⟩ | ⟨hload, -⟩
  · omega
  · exact hload

/-- Settles O10: by whether the increment reaches 31 and, where it does, whether four bytes remain; the word is
`indWord` of the next four bytes. -/
theorem refillAtPositionThirtyOne : Obligations.RefillAtPositionThirtyOne := by
  unfold Obligations.RefillAtPositionThirtyOne
  intro s hh hp ho hi
  rw [step_of_guard hh hp ho hi]
  refine ⟨?short, ?refill, ?advance⟩
  case short =>
    intro hb hr
    have hb31 : s.bitPos + 1 = 31 := (bitPos_reaches_iff s).2 hb
    rw [afterGuard_short hp hb31 hr, raiseHalt, advanceBit, hb31]
  case refill =>
    intro hb h4
    refine ⟨indWord (inByte s s.inIdx.toNat) (inByte s (s.inIdx.toNat + 1)) (inByte s (s.inIdx.toNat + 2))
      (inByte s (s.inIdx.toNat + 3)), indWord_toNat_or _ _ _ _, exec_ind_loads _ h4, ?_⟩
    rw [afterGuard_token hp fun _ => h4, tokenState_refill ((bitPos_reaches_iff s).2 hb)]
    rfl
  case advance =>
    intro hb
    have hb31 : s.bitPos + 1 ≠ 31 := by
      intro h
      rw [(bitPos_reaches_iff s).1 h] at hb
      exact absurd hb (by decide)
    rw [afterGuard_token hp fun h => absurd h hb31, tokenState_same hb31]
    rfl

end Sys2Proof.Machine
end

section
/-! PROOFS of the literal family: what LIT does where the loop guard has passed (R85). -/

namespace Sys2Proof.Machine

/-- With a byte remaining, the literal fetched is LIT of the byte at `in_idx` (R33, R85). -/
theorem fetchAndRun_literal_of_byte {s : State} (h : 1 ≤ remaining s) :
    fetchAndRun .literal s = exec (.lit (inByte s s.inIdx.toNat)) s := by
  obtain ⟨rest, hwindow⟩ := inputWindow_cons h
  rw [fetchAndRun, hwindow]
  rfl

/-- With no byte remaining, the fetch of a literal halts LIT_SHORT (R85). -/
theorem fetchAndRun_literal_short {s : State} (h : remaining s = 0) :
    fetchAndRun .literal s = .next (raiseHalt .litShort s) := by
  rw [fetchAndRun, inputWindow_zero h]
  rfl

/-- LIT with a byte remaining and the output not full writes its byte and advances both indices (R85). -/
theorem exec_lit_writes (v : Byte) {s : State} (h : 1 ≤ remaining s) (ho : s.outIdx < s.outCap) :
    exec (.lit v) s = .next (consume 1 (emit v s)) := by
  rcases execLit_cases v s with ⟨-, hshort⟩ | ⟨hwrite, -, -⟩ | ⟨-, -, hfull⟩
  · omega
  · exact hwrite
  · exact absurd ho hfull

/-- Settles O14: with a byte remaining the fetch gives LIT of the byte at `in_idx`, which writes it; with none remaining
the fetch itself halts. -/
theorem literalCopiesOneByte : Obligations.LiteralCopiesOneByte := by
  unfold Obligations.LiteralCopiesOneByte
  intro s ho
  refine ⟨?copies, ?short⟩
  case copies =>
    intro h
    rw [fetchAndRun_literal_of_byte h, exec_lit_writes _ h ho]
    rfl
  case short =>
    intro h
    exact fetchAndRun_literal_short h

end Sys2Proof.Machine
end

section
/-! PROOFS of the match token family, the decoder's side: which shape a lead byte selects and with which size (R91), and the
fields of each shape in the spec's own formulas and within their ranges (R60, R94 to R98). -/

namespace Sys2Proof.Machine

/-- The dispatch tests on the two low bits, as remainders (R91). -/
theorem byte_and_three_eq_iff (b k : Byte) : b &&& 3#8 = k ↔ b.toNat % 4 = k.toNat := by
  rw [← byte_and_three]
  exact BitVec.toNat_inj.symm

/-- The dispatch test for `M4`, as a remainder (R91). -/
theorem byte_and_seven_eq_iff (b k : Byte) : b &&& 7#8 = k ↔ b.toNat % 8 = k.toNat := by
  rw [← byte_and_seven]
  exact BitVec.toNat_inj.symm

/-! The element decoded, by the remainder of the lead byte; `decode_m4_of_leadByte` is the case of `M4`. -/

theorem decode_m1_of_leadByte {b0 : Byte} (b1 : Byte) (more : List Byte) (h : b0.toNat % 4 = 0) :
    decode .matchToken (b0 :: b1 :: more) = .element (.m1 (m1Off b0)) := by
  simp [decode_matchToken_cons_cons, decodeMatch, byte_and_three_eq_iff, h]

theorem decode_m2_of_leadByte {b0 : Byte} (b1 : Byte) (more : List Byte) (h : b0.toNat % 4 = 2) :
    decode .matchToken (b0 :: b1 :: more) = .element (.m2 (m2Len b0) (m2Off b0 b1)) := by
  simp [decode_matchToken_cons_cons, decodeMatch, byte_and_three_eq_iff, h]

theorem decode_m3_of_leadByte {b0 : Byte} (b1 : Byte) (more : List Byte) (h : b0.toNat % 4 = 1) :
    decode .matchToken (b0 :: b1 :: more) = .element (.m3 (m3Off b0 b1)) := by
  simp [decode_matchToken_cons_cons, decodeMatch, byte_and_three_eq_iff, h]

theorem decode_m5_of_leadByte {b0 : Byte} (b1 b2 : Byte) (more : List Byte) (h : b0.toNat % 8 = 3) :
    decode .matchToken (b0 :: b1 :: b2 :: more) = .element (.m5 (m5Len b0) (m5Off b1 b2)) := by
  have h4 : b0.toNat % 4 = 3 := by omega
  simp [decode_matchToken_cons_cons, decodeMatch, byte_and_three_eq_iff, byte_and_seven_eq_iff, h, h4]

/-! The size of the element. -/

/-- The table of sizes by lead byte, its tests as remainders (R91). -/
theorem refSize_of_mod (n : Nat) :
    (n % 4 = 0 → refSize n = 1) ∧ (n % 4 = 2 → refSize n = 2) ∧ (n % 4 = 1 → refSize n = 2) ∧
    (n % 8 = 7 → refSize n = 4) ∧ (n % 8 = 3 → refSize n = 3) := by
  simp only [refSize, nat_and_three, nat_and_seven]
  split_ifs <;> omega

/-- After the lookahead the match decoder gives an element of the size the lead byte selects, or that size is more than
the bytes there are (R91, R92). -/
theorem decode_matchToken_size (b0 b1 : Byte) (rest : List Byte) :
    (∃ i, decode .matchToken (b0 :: b1 :: rest) = .element i ∧ i.size = refSize b0.toNat ∧
      refSize b0.toNat ≤ rest.length + 2) ∨
    (decode .matchToken (b0 :: b1 :: rest) = .short .token ∧ rest.length + 2 < refSize b0.toNat) := by
  obtain ⟨size1, size2, size3, size4, size5⟩ := refSize_of_mod b0.toNat
  rw [decode_matchToken_cons_cons]
  rcases decodeMatch_cases b0 b1 rest with
    ⟨hdec, hlead⟩ | ⟨hdec, hlead⟩ | ⟨hdec, hlead⟩ | ⟨b2, b3, more, rfl, hlead, hdec⟩ | ⟨hlen, hlead, hdec⟩ |
      ⟨b2, more, rfl, hlead, hdec⟩ | ⟨rfl, hlead, hdec⟩
  · exact .inl ⟨_, hdec, (size1 hlead).symm, by rw [size1 hlead]; omega⟩
  · exact .inl ⟨_, hdec, (size2 hlead).symm, by rw [size2 hlead]; omega⟩
  · exact .inl ⟨_, hdec, (size3 hlead).symm, by rw [size3 hlead]; omega⟩
  · exact .inl ⟨_, hdec, (size4 hlead).symm, by rw [size4 hlead, List.length_cons, List.length_cons]; omega⟩
  · exact .inr ⟨hdec, by rw [size4 hlead]; omega⟩
  · exact .inl ⟨_, hdec, (size5 hlead).symm, by rw [size5 hlead, List.length_cons]; omega⟩
  · exact .inr ⟨hdec, by rw [size5 hlead]; decide⟩

/-! The fields in the spec's formulas (R94 to R98). -/

theorem m1Off_toNat_shift (b0 : Byte) : (m1Off b0).toNat = b0.toNat >>> 2 := by
  rw [m1Off_toNat, Nat.shiftRight_eq_div_pow]

theorem m2Len_toNat_and (b0 : Byte) : (m2Len b0).toNat = ((b0.toNat >>> 2) &&& 0xF) + 3 := by
  rw [m2Len_toNat, nat_and_fifteen, Nat.shiftRight_eq_div_pow]

theorem m2Off_toNat_or (b0 b1 : Byte) : (m2Off b0 b1).toNat = (b1.toNat <<< 2) ||| (b0.toNat >>> 6) := by
  have h0 := b0.isLt
  have hlow : b0.toNat >>> 6 < 2 ^ 2 := by omega
  rw [m2Off_toNat, nat_shift_or hlow]
  omega

theorem m3Off_toNat_or (b0 b1 : Byte) : (m3Off b0 b1).toNat = (b1.toNat <<< 6) ||| (b0.toNat >>> 2) := by
  have h0 := b0.isLt
  have hlow : b0.toNat >>> 2 < 2 ^ 6 := by omega
  rw [m3Off_toNat, nat_shift_or hlow]
  omega

theorem m4Len_toNat_or (b0 b3 : Byte) :
    (m4Len b0 b3).toNat = (((b3.toNat &&& 7) <<< 5) ||| (b0.toNat >>> 3)) + 3 := by
  have h0 := b0.isLt
  have hlow : b0.toNat >>> 3 < 2 ^ 5 := by omega
  rw [m4Len_toNat, nat_shift_or hlow, nat_and_seven]
  omega

theorem m4Off_toNat_or (b1 b2 b3 : Byte) :
    (m4Off b1 b2 b3).toNat = (b3.toNat <<< 13) ||| (b2.toNat <<< 5) ||| (b1.toNat >>> 3) := by
  have h1 := b1.isLt
  have h2 := b2.isLt
  have hlow : b1.toNat >>> 3 < 2 ^ 5 := by omega
  have hmid : b2.toNat * 2 ^ 5 + b1.toNat >>> 3 < 2 ^ 13 := by omega
  rw [m4Off_toNat, Nat.or_assoc, nat_shift_or hlow, nat_shift_or hmid]
  omega

theorem m5Len_toNat_shift (b0 : Byte) : (m5Len b0).toNat = (b0.toNat >>> 3) + 3 := by
  rw [m5Len_toNat, Nat.shiftRight_eq_div_pow]

theorem m5Off_toNat_or (b1 b2 : Byte) : (m5Off b1 b2).toNat = (b2.toNat <<< 8) ||| b1.toNat := by
  rw [m5Off_toNat, nat_shift_or b1.isLt]
  omega

/-! The ranges of the fields (R60). -/

theorem m1Off_le (b0 : Byte) : (m1Off b0).toNat ≤ 63 := by
  have h0 := b0.isLt
  rw [m1Off_toNat]
  omega

theorem m2Len_le (b0 : Byte) : (m2Len b0).toNat ≤ 18 := by
  rw [m2Len_toNat]
  omega

theorem m2Off_le (b0 b1 : Byte) : (m2Off b0 b1).toNat ≤ 1023 := by
  have h0 := b0.isLt
  have h1 := b1.isLt
  rw [m2Off_toNat]
  omega

theorem m3Off_le (b0 b1 : Byte) : (m3Off b0 b1).toNat ≤ 16383 := by
  have h0 := b0.isLt
  have h1 := b1.isLt
  rw [m3Off_toNat]
  omega

theorem m4Len_le (b0 b3 : Byte) : (m4Len b0 b3).toNat ≤ 258 := by
  have h0 := b0.isLt
  rw [m4Len_toNat]
  omega

/-- `M4`'s offset fills its latch, so its range is the width's (R99). -/
theorem m4Off_le (b1 b2 b3 : Byte) : (m4Off b1 b2 b3).toNat ≤ 2097151 := Nat.le_of_lt_succ (m4Off b1 b2 b3).isLt

theorem m5Len_le (b0 : Byte) : (m5Len b0).toNat ≤ 34 := by
  have h0 := b0.isLt
  rw [m5Len_toNat]
  omega

theorem m5Off_le (b1 b2 : Byte) : (m5Off b1 b2).toNat ≤ 65535 := by
  have h1 := b1.isLt
  have h2 := b2.isLt
  rw [m5Off_toNat]
  omega

/-- Settles O16: the shape by the remainder of the lead byte, `M5` being the remainder 3 modulo 8 that the `M4` test leaves;
the size clause holds of every element the match decoder gives. -/
theorem leadByteSelectsTheShape : Obligations.LeadByteSelectsTheShape := by
  unfold Obligations.LeadByteSelectsTheShape
  intro b0 b1 b2 b3
  simp only [nat_and_three, nat_and_seven]
  refine ⟨fun h => ⟨_, decode_m1_of_leadByte b1 _ h⟩, fun h => ⟨_, _, decode_m2_of_leadByte b1 _ h⟩,
    fun h => ⟨_, decode_m3_of_leadByte b1 _ h⟩, fun h => ⟨_, _, _, decode_m4_of_leadByte b1 b2 b3 _ h⟩,
    fun h h7 => ⟨_, _, decode_m5_of_leadByte b1 b2 _ (by omega)⟩, ?size⟩
  case size =>
    intro i hi
    rcases decode_matchToken_size b0 b1 [b2, b3] with ⟨j, hj, hsize, -⟩ | ⟨hshort, -⟩
    · obtain rfl : j = i := by simpa [hj] using hi
      exact hsize
    · simp [hshort] at hi

end Sys2Proof.Machine
end

section
/-! PROOFS of the match token family, the engine's side: what a match token at `in_idx` does up to its latches (R92, R94 to
R98). -/

namespace Sys2Proof.Machine

open Sys2Proof.Safety

/-- The element the decoder finds at `in_idx` is the one that runs (R59, R70). -/
theorem fetchAndRun_of_element {slot : Slot} {s : State} {i : Instr}
    (h : decode slot (inputWindow s) = .element i) : fetchAndRun slot s = exec i s := by
  simp [fetchAndRun, h]

/-- With too few bytes for the decoder the fetch halts with its cause and changes nothing else (R131). -/
theorem fetchAndRun_of_short {slot : Slot} {s : State} {why : Short}
    (h : decode slot (inputWindow s) = .short why) : fetchAndRun slot s = .next (raiseHalt (shortCause why) s) := by
  simp [fetchAndRun, h]

/-- A decoded match token whose bytes remain is taken with its size and its fields (R92, R93). -/
theorem takenAsMatch_of_element {s : State} {bytes : List Byte} {i : Instr} {len : BitVec 9} {off : BitVec 21}
    {size l o : Nat} (hwindow : inputWindow s = bytes) (hdec : decode .matchToken bytes = .element i)
    (hexec : exec i s = beginMatch size len off s) (h2 : 2 ≤ remaining s) (hsize : size ≤ remaining s)
    (hlen : len.toNat = l) (hoff : off.toNat = o) : takenAsMatch s size l o := by
  rw [← hwindow] at hdec
  exact ⟨_, (fetchAndRun_of_element hdec).trans (hexec.trans (beginMatch_next h2 hsize)), hlen, hoff, rfl⟩

/-- Settles O17: the two bytes of the lookahead decode to `M1`, which consumes one of them. -/
theorem shapeM1TakesOneByte : Obligations.ShapeM1TakesOneByte := by
  unfold Obligations.ShapeM1TakesOneByte
  intro s h2 hlead
  rw [nat_and_three] at hlead
  obtain ⟨rest, hwindow, -⟩ := inputWindow_cons_cons h2
  exact ⟨takenAsMatch_of_element hwindow (decode_m1_of_leadByte _ rest hlead) rfl h2 (by omega) rfl
      (m1Off_toNat_shift _),
    (m1Off_toNat_shift _).ge.trans (m1Off_le _)⟩

/-- Settles O18: the two bytes of the lookahead decode to `M2`, which consumes them. -/
theorem shapeM2TakesTwoBytes : Obligations.ShapeM2TakesTwoBytes := by
  unfold Obligations.ShapeM2TakesTwoBytes
  intro s h2 hlead
  rw [nat_and_three] at hlead
  obtain ⟨rest, hwindow, -⟩ := inputWindow_cons_cons h2
  exact ⟨takenAsMatch_of_element hwindow (decode_m2_of_leadByte _ rest hlead) rfl h2 h2 (m2Len_toNat_and _)
      (m2Off_toNat_or _ _),
    (m2Len_toNat_and _).ge.trans (m2Len_le _), (m2Off_toNat_or _ _).ge.trans (m2Off_le _ _)⟩

/-- Settles O19: the two bytes of the lookahead decode to `M3`, which consumes them. -/
theorem shapeM3TakesTwoBytes : Obligations.ShapeM3TakesTwoBytes := by
  unfold Obligations.ShapeM3TakesTwoBytes
  intro s h2 hlead
  rw [nat_and_three] at hlead
  obtain ⟨rest, hwindow, -⟩ := inputWindow_cons_cons h2
  exact ⟨takenAsMatch_of_element hwindow (decode_m3_of_leadByte _ rest hlead) rfl h2 h2 rfl (m3Off_toNat_or _ _),
    (m3Off_toNat_or _ _).ge.trans (m3Off_le _ _)⟩

/-- Settles O20: the full window of four bytes decodes to `M4`, whose length and offset both read `b3`. -/
theorem shapeM4TakesFourBytes : Obligations.ShapeM4TakesFourBytes := by
  unfold Obligations.ShapeM4TakesFourBytes
  intro s h4 hlead
  rw [nat_and_seven] at hlead
  have h2 : 2 ≤ remaining s := by omega
  exact ⟨takenAsMatch_of_element (inputWindow_four h4) (decode_m4_of_leadByte _ _ _ [] hlead) rfl h2 h4
      (m4Len_toNat_or _ _) (m4Off_toNat_or _ _ _),
    (m4Len_toNat_or _ _).ge.trans (m4Len_le _ _), (m4Off_toNat_or _ _ _).ge.trans (m4Off_le _ _ _)⟩

/-- Settles O21: the window holds a third byte, and the lead byte, 3 modulo 8, decodes it to `M5`. -/
theorem shapeM5TakesThreeBytes : Obligations.ShapeM5TakesThreeBytes := by
  unfold Obligations.ShapeM5TakesThreeBytes
  intro s h3 hlow hnotM4
  rw [nat_and_three] at hlow
  rw [nat_and_seven] at hnotM4
  have h2 : 2 ≤ remaining s := by omega
  have hlead : nextByte s 0 % 8 = 3 := by omega
  obtain ⟨rest, hwindow, hthird, -⟩ := inputWindow_cons_cons h2
  obtain ⟨rest', rfl⟩ := hthird h3
  exact ⟨takenAsMatch_of_element hwindow (decode_m5_of_leadByte _ _ rest' hlead) rfl h2 h3
      (m5Len_toNat_shift _) (m5Off_toNat_or _ _),
    (m5Len_toNat_shift _).ge.trans (m5Len_le _), (m5Off_toNat_or _ _).ge.trans (m5Off_le _ _)⟩

/-- Settles O22: the window is as short as the bytes that remain, so the decoder gives no element of the size the lead byte
selects, and the shortage is the halt. -/
theorem shapeCutShortHalts : Obligations.ShapeCutShortHalts := by
  unfold Obligations.ShapeCutShortHalts
  intro s h2 hcut
  obtain ⟨rest, hwindow, -⟩ := inputWindow_cons_cons h2
  have hlen : rest.length + 2 = min 4 (remaining s) := by rw [← inputWindow_length, hwindow]; rfl
  have hsize := decode_matchToken_size (inByte s s.inIdx.toNat) (inByte s (s.inIdx.toNat + 1)) rest
  rw [← hwindow] at hsize
  rcases hsize with ⟨_, -, -, hfits⟩ | ⟨hshort, -⟩
  · have hle : refSize (nextByte s 0) ≤ rest.length + 2 := hfits
    omega
  · exact fetchAndRun_of_short hshort

end Sys2Proof.Machine
end

section
/-! PROOFS of the copy loop family: what one step in COPY does (R105). -/

namespace Sys2Proof.Machine

/-- In COPY the engine alone takes the copy step (R78, R105). -/
theorem step_of_copy {s : State} (hh : s.host = []) (hp : s.phase = .copy) : step s = .next (copyStep s) :=
  (step_alone hh).trans (engineStep_copy hp)

/-- One byte emitted and counted down in COPY: the count decides the phase by whether it was 1 (R105). -/
theorem countDown_emit_of_copy (v : Byte) {s : State} (hp : s.phase = .copy) :
    countDown (emit v s) = { s with
      outMem := Memory.write s.outMem s.outIdx.toNat v
      outIdx := s.outIdx + 1
      cnt := s.cnt - 1
      phase := if s.cnt = 1 then .run else .copy } := by
  have hlast : s.cnt - 1 = 0 ↔ s.cnt = 1 := sub_eq_zero
  simp only [countDown, emit, hp, hlast]

/-- Settles O29: by the outcomes of `copyStep`, each of which meets the guards of one clause only; a source that is not
negative is the unsigned difference at which the copied byte is read. -/
theorem copyStepCopiesOneByte : Obligations.CopyStepCopiesOneByte := by
  unfold Obligations.CopyStepCopiesOneByte
  rintro s hh hp hcnt src rfl
  rw [step_of_copy hh hp]
  rcases copyStep_cases s with ⟨hzero, -⟩ | ⟨-, hunder, hstep⟩ | ⟨-, hsrc, hfull, hstep⟩ | ⟨-, hsrc, hfree, hstep⟩
  · exact absurd hzero hcnt
  · refine ⟨fun _ => ?underflow, by omega, by omega⟩
    case underflow => rw [hstep, raiseHalt]
  · refine ⟨by omega, fun _ _ => ?full, fun _ hfree => absurd hfree (BitVec.not_lt.2 hfull)⟩
    case full => rw [hstep, raiseHalt]
  · refine ⟨by omega, fun _ hfull => absurd hfree (BitVec.not_lt.2 hfull), fun _ _ => ?copied⟩
    case copied =>
      have hindex : ((s.outIdx.toNat : Int) - s.mOff.toNat - 1).toNat = s.outIdx.toNat - (s.mOff.toNat + 1) := by omega
      rw [hstep, countDown_emit_of_copy _ hp, hindex]

end Sys2Proof.Machine
end

section
/-! PROOFS of the exceptions family: what a halting step changes (R131) and what leads out of HALTED (R135). -/

namespace Sys2Proof.Machine

open Sys2Proof.Safety

/-- A token step halts only by raising a cause in the state it started in or in one it reached before its token
(R71, R74, R85, R90, R92). -/
theorem tokenStep_halts {s t : State} (hp : s.phase = .run) (hs : tokenStep s = .next t) (ht : t.phase = .halted) :
    ∃ c u, c ≠ .none ∧ (u = s ∨ u = advanceBit s ∨ u = tokenState s) ∧ t = raiseHalt c u := by
  have reached {u : State} (hstep : tokenStep s = .next u) : t = u := by simpa [hs] using hstep
  rcases tokenStep_outcomes s hp with ⟨-, houtFull⟩ | ⟨-, -, hinEmpty⟩ | ⟨-, -, -, -, hrefillShort⟩ | ⟨-, -, -, htoken⟩
  · exact ⟨_, _, by decide, .inl rfl, reached houtFull⟩
  · exact ⟨_, _, by decide, .inl rfl, reached hinEmpty⟩
  · exact ⟨_, _, by decide, .inr (.inl rfl), reached hrefillShort⟩
  · rcases htoken with ⟨-, -, hlitShort⟩ | ⟨-, -, hlit⟩ | ⟨-, -, htokenShort⟩ |
      ⟨_, _, _, -, -, -, -, -, -, -, -, hmatch⟩
    · exact ⟨_, _, by decide, .inr (.inr rfl), reached hlitShort⟩
    · simp [reached hlit, hp] at ht
    · exact ⟨_, _, by decide, .inr (.inr rfl), reached htokenShort⟩
    · simp [reached hmatch] at ht

/-- A copy step halts only by raising a cause in the state it started in (R105). -/
theorem copyStep_halts {s : State} (hp : s.phase = .copy) (ht : (copyStep s).phase = .halted) :
    ∃ c, c ≠ .none ∧ copyStep s = raiseHalt c s := by
  rcases copyStep_cases s with ⟨-, hover⟩ | ⟨-, -, hunder⟩ | ⟨-, -, -, hfull⟩ | ⟨-, -, -, hcopied⟩
  · simp [hover] at ht
  · exact ⟨_, by decide, hunder⟩
  · exact ⟨_, by decide, hfull⟩
  · rw [hcopied, countDown_emit_of_copy _ hp] at ht
    dsimp only at ht
    split at ht <;> cases ht

/-- A halting step of the engine is a halt transition, taken in one of the states the step passes through (R131). -/
theorem step_halts {s t : State} (hh : s.host = []) (hp : s.phase = .run ∨ s.phase = .copy)
    (hs : step s = .next t) (ht : t.phase = .halted) :
    ∃ c u, c ≠ .none ∧ (u = s ∨ u = advanceBit s ∨ u = tokenState s) ∧ t = raiseHalt c u := by
  rcases hp with hrun | hcopy
  · rw [step_alone hh, engineStep_run hrun] at hs
    exact tokenStep_halts hrun hs ht
  · rw [step_of_copy hh hcopy] at hs
    obtain rfl : copyStep s = t := by simpa using hs
    obtain ⟨c, hc, hraise⟩ := copyStep_halts hcopy ht
    exact ⟨c, s, hc, .inl rfl, hraise⟩

/-- Settles O34: the halt transition writes `cause` and `phase` alone, and neither advancing `bit_pos` nor the refill
touches `OUT`, its cursor or the latches. -/
theorem haltChangesNothingElse : Obligations.HaltChangesNothingElse := by
  unfold Obligations.HaltChangesNothingElse
  intro s t hh hp hs ht
  obtain ⟨c, u, hc, hu, rfl⟩ := step_halts hh hp hs ht
  refine ⟨⟨c, u, hc, hu, rfl⟩, ?_⟩
  rcases hu with rfl | rfl | rfl <;> simp

/-- In HALTED the engine has no step of its own (R135). -/
theorem engineStep_halted {s : State} (hp : s.phase = .halted) : engineStep s = .next s := by
  simp [engineStep, hp]

/-- Of the events only START written with 1 and hardware reset lead out of HALTED (R135). -/
theorem hostAct_leaves_halted {e : HostEvent} {s t : State} (hp : s.phase = .halted) (h : hostAct e s = .next t)
    (ht : t.phase ≠ .halted) : (e = .writeStart 1 ∧ t = beginDecode s) ∨ (e = .hardReset ∧ t = hardReset s) := by
  have keeps_phase (hsame : t.phase = s.phase) : False := ht (hsame.trans hp)
  rcases hostAct_cases h with ⟨-, hengine⟩ | ⟨he, -, hstart⟩ | hreset | ⟨-, hwrite⟩ | ⟨-, -, -, hread⟩
  · rw [engineStep_halted hp] at hengine
    cases hengine
    exact (keeps_phase rfl).elim
  · exact .inl ⟨he, hstart⟩
  · exact .inr hreset
  · rcases hwrite with ⟨_, -, rfl⟩ | ⟨_, -, rfl⟩ | ⟨_, _, -, rfl⟩ | ⟨_, _, -, rfl⟩ <;>
      exact (keeps_phase rfl).elim
  · exact (keeps_phase (by rw [hread])).elim

/-- Settles O35: left alone a halted engine stays as it is; of the host's events only START and hardware reset lead out,
and what they set is the claim. -/
theorem haltedIsTerminal : Obligations.HaltedIsTerminal := by
  unfold Obligations.HaltedIsTerminal
  intro s t hp hs ht
  cases hh : s.host with
  | nil =>
    rw [step_halted hp hh] at hs
    cases hs
    exact absurd hp ht
  | cons e rest =>
    rw [step_event hh] at hs
    rcases hostAct_leaves_halted (s := { s with host := rest }) hp hs ht with ⟨rfl, rfl⟩ | ⟨rfl, rfl⟩
    · exact .inl ⟨rfl, rfl, rfl, rfl⟩
    · exact .inr ⟨rfl, rfl⟩

end Sys2Proof.Machine
end

section
/-! PROOFS, what the engine's own step can do: the five shapes of a match token as one fact, and one list of outcomes for each
phase that moves, from which the frames, the bounds and the progress of a step are read off (R71, R74, R85, R90 to R93,
R105). -/

namespace Sys2Proof.Machine

open Sys2Proof.Safety

/-! The match token at `in_idx`. -/

/-- A match token is one to four bytes long (R50, R91). -/
theorem refSize_range (n : Nat) : 1 ≤ refSize n ∧ refSize n ≤ 4 := by
  simp only [refSize]
  split_ifs <;> omega

/-- The table of fields by lead byte, its tests as remainders (R60, R91). -/
theorem refFields_of_mod (n b1 b2 b3 : Nat) :
    (n % 4 = 0 → refFields n b1 b2 b3 = (3, n >>> 2)) ∧
    (n % 4 = 2 → refFields n b1 b2 b3 = (((n >>> 2) &&& 0xF) + 3, (b1 <<< 2) ||| (n >>> 6))) ∧
    (n % 4 = 1 → refFields n b1 b2 b3 = (3, (b1 <<< 6) ||| (n >>> 2))) ∧
    (n % 8 = 7 → refFields n b1 b2 b3 =
      ((((b3 &&& 7) <<< 5) ||| (n >>> 3)) + 3, (b3 <<< 13) ||| (b2 <<< 5) ||| (b1 >>> 3))) ∧
    (n % 8 = 3 → refFields n b1 b2 b3 = ((n >>> 3) + 3, (b2 <<< 8) ||| b1)) := by
  simp only [refFields, nat_and_three, nat_and_seven]
  refine ⟨fun h => ?_, fun h => ?_, fun h => ?_, fun h => ?_, fun h => ?_⟩
  · simp [h]
  · simp [h]
  · simp [h]
  · have h4 : n % 4 = 3 := by omega
    simp [h, h4]
  · have h4 : n % 4 = 3 := by omega
    simp [h, h4]

/-- A decoded match token whose bytes remain is consumed and latched (R92, R93). -/
theorem fetchAndRun_latches {s : State} {bytes : List Byte} {i : Instr} {len : BitVec 9} {off : BitVec 21} {size : Nat}
    (hwindow : inputWindow s = bytes) (hdec : decode .matchToken bytes = .element i)
    (hexec : exec i s = beginMatch size len off s) (h2 : 2 ≤ remaining s) (hsize : size ≤ remaining s) :
    fetchAndRun .matchToken s = .next (consume size (latchMatch len off s)) := by
  rw [← hwindow] at hdec
  rw [fetchAndRun_of_element hdec, hexec, beginMatch_next h2 hsize]

/-- A match token with the bytes it needs is consumed by its lead byte's size and latches the table's fields, whatever its
shape (R91 to R98). -/
theorem fetchAndRun_match {s : State} (h2 : 2 ≤ remaining s) (hsize : refSize (nextByte s 0) ≤ remaining s) :
    ∃ len off, fetchAndRun .matchToken s = .next (consume (refSize (nextByte s 0)) (latchMatch len off s)) ∧
      (len.toNat, off.toNat) = refFields (nextByte s 0) (nextByte s 1) (nextByte s 2) (nextByte s 3) ∧
      3 ≤ len.toNat ∧ len.toNat ≤ 258 := by
  obtain ⟨size1, size2, size3, size4, size5⟩ := refSize_of_mod (nextByte s 0)
  obtain ⟨fields1, fields2, fields3, fields4, fields5⟩ :=
    refFields_of_mod (nextByte s 0) (nextByte s 1) (nextByte s 2) (nextByte s 3)
  obtain ⟨rest, hwindow, hthird, hfourth, -⟩ := inputWindow_cons_cons h2
  have hlead : nextByte s 0 % 4 = 0 ∨ nextByte s 0 % 4 = 2 ∨ nextByte s 0 % 4 = 1 ∨ nextByte s 0 % 8 = 7 ∨
    nextByte s 0 % 8 = 3 := by omega
  rcases hlead with h | h | h | h | h
  · rw [size1 h] at hsize ⊢
    rw [fields1 h]
    exact ⟨_, _, fetchAndRun_latches hwindow (decode_m1_of_leadByte _ rest h) rfl h2 hsize,
      by rw [m1Off_toNat_shift]; rfl, by decide, by decide⟩
  · rw [size2 h] at hsize ⊢
    rw [fields2 h]
    exact ⟨_, _, fetchAndRun_latches hwindow (decode_m2_of_leadByte _ rest h) rfl h2 hsize,
      by rw [m2Len_toNat_and, m2Off_toNat_or]; rfl, by rw [m2Len_toNat]; omega, (m2Len_le _).trans (by decide)⟩
  · rw [size3 h] at hsize ⊢
    rw [fields3 h]
    exact ⟨_, _, fetchAndRun_latches hwindow (decode_m3_of_leadByte _ rest h) rfl h2 hsize,
      by rw [m3Off_toNat_or]; rfl, by decide, by decide⟩
  · rw [size4 h] at hsize ⊢
    rw [fields4 h]
    rw [hfourth hsize] at hwindow
    exact ⟨_, _, fetchAndRun_latches hwindow (decode_m4_of_leadByte _ _ _ [] h) rfl h2 hsize,
      by rw [m4Len_toNat_or, m4Off_toNat_or]; rfl, by rw [m4Len_toNat]; omega, m4Len_le _ _⟩
  · rw [size5 h] at hsize ⊢
    rw [fields5 h]
    obtain ⟨rest', rfl⟩ := hthird hsize
    exact ⟨_, _, fetchAndRun_latches hwindow (decode_m5_of_leadByte _ _ rest' h) rfl h2 hsize,
      by rw [m5Len_toNat_shift, m5Off_toNat_or]; rfl, by rw [m5Len_toNat]; omega, (m5Len_le _).trans (by decide)⟩

/-- Settles O23: a window of fewer than two bytes gives the match decoder nothing, and the shortage is the halt. -/
theorem matchNeedsTwoBytes : Obligations.MatchNeedsTwoBytes := by
  unfold Obligations.MatchNeedsTwoBytes
  intro s h2
  have hshort : decode .matchToken (inputWindow s) = .short .token := by
    have hnone_or_one : remaining s = 0 ∨ remaining s = 1 := by omega
    rcases hnone_or_one with h | h
    · rw [inputWindow_zero h]; rfl
    · rw [inputWindow_one h]; rfl
  exact fetchAndRun_of_short hshort

/-- A match token without its bytes halts, whichever of the two checks finds it (R90, R92). -/
theorem fetchAndRun_match_short {s : State} (h : remaining s < 2 ∨ remaining s < refSize (nextByte s 0)) :
    fetchAndRun .matchToken s = .next (raiseHalt .tokenShort s) := by
  by_cases h2 : remaining s < 2
  · exact matchNeedsTwoBytes s h2
  · exact shapeCutShortHalts s (by omega) (h.resolve_left h2)

/-! The token step. -/

/-- The loop guard of R71 has passed, and where a refill is due its four bytes remain (R74). -/
structure GuardPassed (s : State) : Prop where
  room : s.outIdx < s.outCap
  more : s.inIdx < s.inLen
  refill : s.bitPos + 1 = 31 → 4 ≤ remaining s

/-- The outcomes of a token step: two of the loop guard, one of the refill, and, in the state the refill leaves, two of a
literal and two of a match token (R71, R74, R85, R90 to R93). -/
inductive TokenMove (s : State) : State → Prop
  | outFull (full : s.outCap ≤ s.outIdx) : TokenMove s (raiseHalt .outFull s)
  | inEmpty (room : s.outIdx < s.outCap) (used : s.inLen ≤ s.inIdx) : TokenMove s (raiseHalt .inEmpty s)
  | refillShort (room : s.outIdx < s.outCap) (more : s.inIdx < s.inLen) (due : s.bitPos + 1 = 31)
      (few : remaining s < 4) : TokenMove s (raiseHalt .refillShort (advanceBit s))
  | litShort (passed : GuardPassed s) (clear : controlBit (tokenState s) = false)
      (used : remaining (tokenState s) = 0) : TokenMove s (raiseHalt .litShort (tokenState s))
  | literal (passed : GuardPassed s) (clear : controlBit (tokenState s) = false)
      (one : 1 ≤ remaining (tokenState s)) :
      TokenMove s (consume 1 (emit (inByte (tokenState s) (tokenState s).inIdx.toNat) (tokenState s)))
  | tokenShort (passed : GuardPassed s) (set : controlBit (tokenState s) = true)
      (few : remaining (tokenState s) < 2 ∨ remaining (tokenState s) < refSize (nextByte (tokenState s) 0)) :
      TokenMove s (raiseHalt .tokenShort (tokenState s))
  | matchToken (passed : GuardPassed s) (set : controlBit (tokenState s) = true) (two : 2 ≤ remaining (tokenState s))
      (fits : refSize (nextByte (tokenState s) 0) ≤ remaining (tokenState s)) (len : BitVec 9) (off : BitVec 21)
      (fields : (len.toNat, off.toNat) = refFields (nextByte (tokenState s) 0) (nextByte (tokenState s) 1)
        (nextByte (tokenState s) 2) (nextByte (tokenState s) 3))
      (len_low : 3 ≤ len.toNat) (len_high : len.toNat ≤ 258) :
      TokenMove s (consume (refSize (nextByte (tokenState s) 0)) (latchMatch len off (tokenState s)))

/-- The control bit clear: the token is the literal. -/
theorem runToken_clear {s : State} (h : controlBit s = false) : runToken s = fetchAndRun .literal s := by
  simp [runToken, tokenSlot, h]

/-- The control bit set: the token is a match token. -/
theorem runToken_set {s : State} (h : controlBit s = true) : runToken s = fetchAndRun .matchToken s := by
  simp [runToken, tokenSlot, h]

/-- Once the guard has passed, the token step is the token's in `tokenState`. -/
theorem runToken_move {s : State} (passed : GuardPassed s) :
    ∃ t, runToken (tokenState s) = .next t ∧ TokenMove s t := by
  cases hbit : controlBit (tokenState s) with
  | false =>
    rw [runToken_clear hbit]
    by_cases hnone : remaining (tokenState s) = 0
    · exact ⟨_, fetchAndRun_literal_short hnone, .litShort passed hbit hnone⟩
    · have hone : 1 ≤ remaining (tokenState s) := by omega
      rw [fetchAndRun_literal_of_byte hone, exec_lit_writes _ hone (by simpa using passed.room)]
      exact ⟨_, rfl, .literal passed hbit hone⟩
  | true =>
    rw [runToken_set hbit]
    by_cases hfew : remaining (tokenState s) < 2 ∨ remaining (tokenState s) < refSize (nextByte (tokenState s) 0)
    · exact ⟨_, fetchAndRun_match_short hfew, .tokenShort passed hbit hfew⟩
    · simp only [not_or, Nat.not_lt] at hfew
      obtain ⟨htwo, hfits⟩ := hfew
      obtain ⟨len, off, hrun, hfields, hlow, hhigh⟩ := fetchAndRun_match htwo hfits
      exact ⟨_, hrun, .matchToken passed hbit htwo hfits len off hfields hlow hhigh⟩

/-- A token step always gives a next state, one of the listed ones (R61, R78). -/
theorem tokenStep_move {s : State} (hp : s.phase = .run) : ∃ t, tokenStep s = .next t ∧ TokenMove s t := by
  rcases tokenStep_cases s with ⟨hfull, hstep⟩ | ⟨hroom, hused, hstep⟩ | ⟨hroom, hmore, hstep⟩
  · exact ⟨_, hstep, .outFull hfull⟩
  · exact ⟨_, hstep, .inEmpty hroom hused⟩
  · rw [hstep]
    rcases afterGuard_cases s hp with ⟨hdue, hfew, hshort⟩ | ⟨hrefill, htoken⟩
    · exact ⟨_, hshort, .refillShort hroom hmore hdue hfew⟩
    · rw [htoken]
      exact runToken_move ⟨hroom, hmore, hrefill⟩

/-! The copy step. -/

/-- The outcomes of a copy step, the count of 0 included that no run reaches (R105, R107). -/
inductive CopyMove (s : State) : State → Prop
  | finished (zero : s.cnt = 0) : CopyMove s { s with phase := .run }
  | underflow (count : s.cnt ≠ 0) (before : s.outIdx.toNat ≤ s.mOff.toNat) : CopyMove s (raiseHalt .srcUnderflow s)
  | cut (count : s.cnt ≠ 0) (source : s.mOff.toNat < s.outIdx.toNat) (full : s.outCap ≤ s.outIdx) :
      CopyMove s (raiseHalt .outFullCopy s)
  | copied (count : s.cnt ≠ 0) (source : s.mOff.toNat < s.outIdx.toNat) (room : s.outIdx < s.outCap) :
      CopyMove s (countDown (emit (outByte s (s.outIdx.toNat - (s.mOff.toNat + 1))) s))

theorem copyStep_move (s : State) : CopyMove s (copyStep s) := by
  rcases copyStep_cases s with ⟨hzero, hstep⟩ | ⟨hcount, hbefore, hstep⟩ | ⟨hcount, hsource, hfull, hstep⟩ |
    ⟨hcount, hsource, hroom, hstep⟩ <;> rw [hstep]
  · exact .finished hzero
  · exact .underflow hcount hbefore
  · exact .cut hcount hsource hfull
  · exact .copied hcount hsource hroom

/-- A copied byte leads back to RUN or leaves the engine in COPY. -/
theorem countDown_emit_not_halted (v : Byte) {s : State} (hp : s.phase = .copy) :
    (countDown (emit v s)).phase ≠ .halted := by
  rw [countDown_phase, emit_phase, hp]
  split <;> decide

/-! The engine's step. -/

/-- What the engine's own step is in each phase (R78, R135). -/
inductive EngineMove (s : State) : State → Prop
  | rest (phase : s.phase = .idle ∨ s.phase = .halted) : EngineMove s s
  | token {t : State} (phase : s.phase = .run) (move : TokenMove s t) : EngineMove s t
  | copy {t : State} (phase : s.phase = .copy) (move : CopyMove s t) : EngineMove s t

/-- The engine by itself never faults and refuses nothing (R61, R125). -/
theorem engineStep_move (s : State) : ∃ t, engineStep s = .next t ∧ EngineMove s t := by
  cases hp : s.phase with
  | idle => exact ⟨s, by simp [engineStep, hp], .rest (.inl hp)⟩
  | run =>
    obtain ⟨t, hstep, hmove⟩ := tokenStep_move hp
    exact ⟨t, (engineStep_run hp).trans hstep, .token hp hmove⟩
  | copy => exact ⟨_, engineStep_copy hp, .copy hp (copyStep_move s)⟩
  | halted => exact ⟨s, engineStep_halted hp, .rest (.inr hp)⟩

theorem engineMove_of_engineStep {s t : State} (h : engineStep s = .next t) : EngineMove s t := by
  obtain ⟨u, hstep, hmove⟩ := engineStep_move s
  obtain rfl : u = t := by simpa [hstep] using h
  exact hmove

theorem engineMove_of_step {s t : State} (hh : s.host = []) (h : step s = .next t) : EngineMove s t :=
  engineMove_of_engineStep ((step_alone hh).symm.trans h)

theorem tokenMove_of_step {s t : State} (hh : s.host = []) (hp : s.phase = .run) (h : step s = .next t) :
    TokenMove s t := by
  cases engineMove_of_step hh h with
  | rest phase => simp [hp] at phase
  | token _ move => exact move
  | copy phase _ => simp [hp] at phase

theorem copyMove_of_step {s t : State} (hh : s.host = []) (hp : s.phase = .copy) (h : step s = .next t) :
    CopyMove s t := by
  cases engineMove_of_step hh h with
  | rest phase => simp [hp] at phase
  | token phase _ => simp [hp] at phase
  | copy _ move => exact move

end Sys2Proof.Machine
end

section
/-! PROOFS of the frames, and of what a step of the engine does to its registers and its output: each read off the lists of
outcomes (R11, R14, R21, R22, R35, R41, R43, R73, R74, R85, R93, R105, R157). -/

namespace Sys2Proof.Machine

open Sys2Proof.Safety

/-! The frames of the elements. -/

/-- Settles O26: neither outcome of IND touches a memory. -/
theorem indFrame : Obligations.IndFrame := by
  unfold Obligations.IndFrame
  intro w s t h
  rcases execInd_cases w s with ⟨hexec, -⟩ | ⟨hexec, -⟩ <;> obtain rfl := Host.Outcome.next.inj (hexec.symm.trans h) <;>
    exact ⟨fun a => outByte_congr rfl rfl a, fun a => inByte_congr rfl rfl a, rfl⟩

/-- A match token's meaning is `beginMatch` with its size, whatever its shape (R93). -/
theorem exec_matchToken {i : Instr} (h : i.slot = .matchToken) (s : State) :
    ∃ len off, exec i s = beginMatch i.size len off s := by
  cases i with
  | ind w => cases h
  | lit v => cases h
  | m1 off => exact ⟨_, _, rfl⟩
  | m2 len off => exact ⟨_, _, rfl⟩
  | m3 off => exact ⟨_, _, rfl⟩
  | m4 len off x => exact ⟨_, _, rfl⟩
  | m5 len off => exact ⟨_, _, rfl⟩

/-- Settles O27: neither outcome of `beginMatch` touches a memory. -/
theorem matchFrame : Obligations.MatchFrame := by
  unfold Obligations.MatchFrame
  intro i s t hslot h
  obtain ⟨len, off, hmatch⟩ := exec_matchToken hslot s
  rcases beginMatch_cases i.size len off s with ⟨hexec, -⟩ | ⟨hexec, -⟩ <;>
    obtain rfl := Host.Outcome.next.inj (hexec.symm.trans (hmatch.symm.trans h)) <;>
    exact ⟨fun a => outByte_congr rfl rfl a, fun a => inByte_congr rfl rfl a, rfl⟩

/-- Settles O25: the check of the lookahead or the check of the shape's own size fails. -/
theorem matchTokensHaltWithoutTheirBytes : Obligations.MatchTokensHaltWithoutTheirBytes := by
  unfold Obligations.MatchTokensHaltWithoutTheirBytes
  intro i s hslot hfew
  obtain ⟨len, off, hmatch⟩ := exec_matchToken hslot s
  exact hmatch.trans (beginMatch_short hfew)

/-- Settles O24: the five shapes are `beginMatch` with their sizes 1, 2, 2, 4 and 3. -/
theorem matchTokensLatchAndConsume : Obligations.MatchTokensLatchAndConsume := by
  unfold Obligations.MatchTokensLatchAndConsume
  intro len off x s h2
  exact ⟨beginMatch_next h2 (by omega), beginMatch_next h2 h2, beginMatch_next h2 h2,
    fun h4 => beginMatch_next h2 h4, fun h3 => beginMatch_next h2 h3⟩

/-- An emitted byte leaves every other byte of `OUT` (R35). -/
theorem outByte_emit_other (v : Byte) (s : State) {a : Nat} (h : a ≠ s.outIdx.toNat) :
    outByte (emit v s) a = outByte s a := by
  rw [outByte_emit, if_neg h]

/-- Settles O28: LIT halts with nothing written, or emits one byte. -/
theorem litFrame : Obligations.LitFrame := by
  unfold Obligations.LitFrame
  intro v s t h
  rcases execLit_cases v s with ⟨hexec, -⟩ | ⟨hexec, -⟩ | ⟨hfault, -⟩
  · obtain rfl := Host.Outcome.next.inj (hexec.symm.trans h)
    exact ⟨fun a _ => outByte_congr rfl rfl a, fun a => inByte_congr rfl rfl a, rfl⟩
  · obtain rfl := Host.Outcome.next.inj (hexec.symm.trans h)
    exact ⟨fun a ha => outByte_emit_other v s ha, fun a => inByte_congr rfl rfl a, rfl⟩
  · cases hfault.symm.trans h

/-- Settles O15: the three outcomes of LIT, each under its own conditions. -/
theorem litWritesItsByte : Obligations.LitWritesItsByte := by
  unfold Obligations.LitWritesItsByte
  intro v s
  refine ⟨fun hone hroom => ?writes, fun hnone => ?halts, fun hone hfull => ?faults⟩
  case writes => exact ⟨_, exec_lit_writes v hone hroom, by simp [outByte], rfl, rfl⟩
  case halts =>
    rcases execLit_cases v s with ⟨hexec, -⟩ | ⟨-, hone, -⟩ | ⟨-, hone, -⟩
    · exact hexec
    · omega
    · omega
  case faults =>
    rcases execLit_cases v s with ⟨-, hnone⟩ | ⟨-, -, hroom⟩ | ⟨hfault, -, -⟩
    · omega
    · exact absurd hroom (BitVec.not_lt.2 hfull)
    · exact hfault

/-- Settles O13: by the two outcomes of IND. -/
theorem indLoadsItsWord : Obligations.IndLoadsItsWord := by
  unfold Obligations.IndLoadsItsWord
  intro w s
  refine ⟨fun h4 => exec_ind_loads w h4, fun hfew => ?_⟩
  rcases execInd_cases w s with ⟨hexec, -⟩ | ⟨-, h4⟩
  · exact hexec
  · omega

/-! The copy step. -/

/-- Settles O30: the source is a difference of the latches' values over the integers; the increments are those of a word
below a limit and of a count that is not 0. -/
theorem copyArithmeticDoesNotWrap : Obligations.CopyArithmeticDoesNotWrap := by
  unfold Obligations.CopyArithmeticDoesNotWrap
  intro s
  have hout := s.outIdx.isLt
  have hoff := s.mOff.isLt
  refine ⟨?_, ?_, ?_, word_succ_of_lt, fun hcnt => (count_pred hcnt).1⟩ <;> simp only [copySource] <;> omega

/-- Settles O31: only a step that copies writes, and it emits one byte. -/
theorem copyFrame : Obligations.CopyFrame := by
  unfold Obligations.CopyFrame
  intro s t hh hp hs
  cases copyMove_of_step hh hp hs with
  | finished => exact ⟨fun a _ => outByte_congr rfl rfl a, fun a => inByte_congr rfl rfl a, rfl⟩
  | underflow => exact ⟨fun a _ => outByte_congr rfl rfl a, fun a => inByte_congr rfl rfl a, rfl⟩
  | cut => exact ⟨fun a _ => outByte_congr rfl rfl a, fun a => inByte_congr rfl rfl a, rfl⟩
  | copied => exact ⟨fun a ha => outByte_emit_other _ s ha, fun a => inByte_congr rfl rfl a, rfl⟩

/-- Settles O32: a step that stays in COPY with a count to go is the one that copies. -/
theorem copySourceFollowsTheCursor : Obligations.CopySourceFollowsTheCursor := by
  unfold Obligations.CopySourceFollowsTheCursor
  intro s t hh hp hcnt hs ht
  cases copyMove_of_step hh hp hs with
  | finished zero => exact absurd zero hcnt
  | underflow => simp at ht
  | cut => simp at ht
  | copied _ source room =>
    obtain ⟨hnext, -⟩ := word_succ_of_lt room
    have hsource : (copySource s).toNat = s.outIdx.toNat - (s.mOff.toNat + 1) := by simp only [copySource]; omega
    refine ⟨by simp only [copySource]; omega, hnext, ?_, ?_⟩
    · simp only [copySource, countDown_outIdx, emit_outIdx, countDown_mOff, emit_mOff, hnext]
      omega
    · rw [outByte_copied, if_pos rfl, hsource]

/-! The engine's step. -/

/-- Settles O37: by the outcomes of each phase; the count decides where a copied byte leads. -/
theorem enginePhaseTransitions : Obligations.EnginePhaseTransitions := by
  unfold Obligations.EnginePhaseTransitions
  intro s t hh hs
  cases engineMove_of_step hh hs with
  | rest phase => exact ⟨fun _ => rfl, fun _ => rfl, fun hp => by simp [hp] at phase, fun hp => by simp [hp] at phase⟩
  | token hp move =>
    refine ⟨by simp [hp], by simp [hp], fun _ => ?_, by simp [hp]⟩
    cases move <;> simp [hp]
  | copy hp move =>
    refine ⟨by simp [hp], by simp [hp], by simp [hp], fun _ => ?_⟩
    cases move with
    | finished zero => exact .inl ⟨rfl, zero⟩
    | underflow => exact .inr (.inr rfl)
    | cut => exact .inr (.inr rfl)
    | copied =>
      by_cases hlast : s.cnt - 1 = 0
      · exact .inl ⟨if_pos hlast, hlast⟩
      · exact .inr (.inl ⟨(if_neg hlast).trans hp, hlast⟩)

theorem tokenMove_sameSurroundings {s t : State} (h : TokenMove s t) : sameSurroundings s t := by
  cases h <;> simp [sameSurroundings]

theorem copyMove_sameSurroundings {s t : State} (h : CopyMove s t) : sameSurroundings s t := by
  cases h <;> exact ⟨rfl, rfl, rfl, rfl, rfl, rfl, rfl⟩

/-- Settles O44: no outcome of either phase updates what belongs to the host. -/
theorem engineLeavesItsInputAlone : Obligations.EngineLeavesItsInputAlone := by
  unfold Obligations.EngineLeavesItsInputAlone
  intro s t hh hs
  cases engineMove_of_step hh hs with
  | rest => exact ⟨rfl, rfl, rfl, rfl, rfl, rfl, rfl⟩
  | token _ move => exact tokenMove_sameSurroundings move
  | copy _ move => exact copyMove_sameSurroundings move

/-- Settles O43: only a literal and a copied byte write, each at the cursor with the guard or the test of R107 passed. -/
theorem outputIsWrittenOnceInOrder : Obligations.OutputIsWrittenOnceInOrder := by
  unfold Obligations.OutputIsWrittenOnceInOrder
  intro s t hh hs
  cases engineMove_of_step hh hs with
  | rest => exact .inl ⟨rfl, rfl⟩
  | token _ move =>
    cases move with
    | literal passed =>
      refine .inr ⟨?_, passed.room, ⟨_, by simp; rfl⟩, fun a ha => ?_⟩
      · simpa using (word_succ_of_lt passed.room).1
      · exact (outByte_emit_other _ (tokenState s) (by simpa using ha)).trans (outByte_congr (by simp) (by simp) a)
    | _ => exact .inl (by simp)
  | copy _ move =>
    cases move with
    | copied _ _ room =>
      exact .inr ⟨(word_succ_of_lt room).1, room, ⟨_, rfl⟩, fun a ha => outByte_emit_other _ s ha⟩
    | _ => exact .inl ⟨rfl, rfl⟩

/-- The input index after a token step that does not halt: its refill and its token, within `in_len` (R21, R74). -/
theorem tokenState_consume_inIdx {s u : State} {k : Nat} (hu : u.inIdx = (tokenState s).inIdx) (passed : GuardPassed s)
    (hk : k ≤ remaining (tokenState s)) :
    (consume k u).inIdx.toNat = (tokenState s).inIdx.toNat + k ∧ (consume k u).inIdx.toNat ≤ s.inLen.toNat ∧
      s.inIdx.toNat + k ≤ (consume k u).inIdx.toNat ∧ (consume k u).inIdx.toNat ≤ s.inIdx.toNat + 4 + k := by
  obtain ⟨hnext, hle⟩ := consume_bounds hu passed.refill passed.more hk
  obtain ⟨-, hlow, hhigh⟩ := tokenState_bounds passed.refill passed.more
  omega

/-- Settles O45: a token step that goes on is a literal or a match token, of one to four bytes after at most four of a
refill; a copy step that goes on copies a byte. -/
theorem everyStepMakesProgress : Obligations.EveryStepMakesProgress := by
  unfold Obligations.EveryStepMakesProgress
  intro s t hh hs ht
  refine ⟨fun hp => ?token, fun hp hcnt => ?copy⟩
  case token =>
    cases tokenMove_of_step hh hp hs with
    | literal passed _ one =>
      obtain ⟨-, -, hlow, hhigh⟩ := tokenState_consume_inIdx (u := emit _ (tokenState s)) rfl passed one
      exact ⟨hlow, by omega, .inl ⟨by simpa using hp, by simpa using (word_succ_of_lt passed.room).1⟩⟩
    | matchToken passed _ _ fits len off =>
      obtain ⟨-, -, hlow, hhigh⟩ := tokenState_consume_inIdx (u := latchMatch len off (tokenState s)) rfl passed fits
      have hsize := refSize_range (nextByte (tokenState s) 0)
      exact ⟨by omega, by omega, .inr ⟨rfl, by simp⟩⟩
    | _ => exact absurd rfl ht
  case copy =>
    cases copyMove_of_step hh hp hs with
    | finished zero => exact absurd zero hcnt
    | copied _ _ room =>
      obtain ⟨hpred, hpos⟩ := count_pred hcnt
      exact ⟨(word_succ_of_lt room).1, rfl, by simp only [countDown_cnt, emit_cnt]; omega⟩
    | _ => exact absurd rfl ht

/-- The control-bit position the token is tested at: one further, modulo 31 (R14, R73, R74). -/
theorem tokenState_bitPos {s : State} (h : s.bitPos.toNat ≤ 30) :
    (tokenState s).bitPos.toNat = (s.bitPos.toNat + 1) % 31 := by
  by_cases hb : s.bitPos + 1 = 31
  · rw [tokenState_refill hb, (bitPos_reaches_iff s).1 hb]
    rfl
  · have hne : s.bitPos.toNat ≠ 30 := fun h30 => hb ((bitPos_reaches_iff s).2 (BitVec.eq_of_toNat_eq h30))
    have hnext : (s.bitPos + 1).toNat = (s.bitPos.toNat + 1) % 32 := by simp
    rw [tokenState_same hb, advanceBit_bitPos, hnext]
    omega

/-- The indicator word the token is tested in: kept, or loaded from the next four bytes (R31, R74). -/
theorem tokenState_ind (s : State) :
    (s.bitPos ≠ 30 → (tokenState s).ind = s.ind) ∧
    (s.bitPos = 30 → (tokenState s).ind.toNat =
      (nextByte s 0 ||| nextByte s 1 <<< 8 ||| nextByte s 2 <<< 16 ||| nextByte s 3 <<< 24)) := by
  refine ⟨fun hb => ?_, fun hb => ?_⟩
  · rw [tokenState_same (mt (bitPos_reaches_iff s).1 hb), advanceBit_ind]
  · rw [tokenState_refill ((bitPos_reaches_iff s).2 hb)]
    exact indWord_toNat_or _ _ _ _

/-- Settles O46: a token step that goes on ends with the position and the word of its `tokenState`; no copy step has
either. -/
theorem controlBitsCycleThroughThirtyOne : Obligations.ControlBitsCycleThroughThirtyOne := by
  unfold Obligations.ControlBitsCycleThroughThirtyOne
  intro s t hh hs ht hpos
  refine ⟨fun hp => ?token, fun hp => ?copy⟩
  case token =>
    cases tokenMove_of_step hh hp hs with
    | literal => exact ⟨tokenState_bitPos hpos, tokenState_ind s⟩
    | matchToken => exact ⟨tokenState_bitPos hpos, tokenState_ind s⟩
    | _ => exact absurd rfl ht
  case copy => cases copyMove_of_step hh hp hs <;> exact ⟨rfl, rfl⟩

/-! The causes of the halts. -/

/-- Settles O38: each outcome that halts carries the condition of its cause; the others do not halt. -/
theorem eachCauseHasItsCondition : Obligations.EachCauseHasItsCondition := by
  unfold Obligations.EachCauseHasItsCondition
  intro s t _ hh hbusy hs ht
  cases engineMove_of_step hh hs with
  | rest phase => rcases hbusy with hp | hp <;> simp [hp] at phase
  | token hp move =>
    cases move with
    | outFull full => exact ⟨hp, full⟩
    | inEmpty room used => exact ⟨hp, room, used⟩
    | refillShort _ more due few =>
      refine ⟨hp, due, ?_, by omega⟩
      have hpos : s.inIdx.toNat < s.inLen.toNat := more
      simp only [remaining]
      omega
    | litShort _ clear used => exact ⟨hp, fun hset => Bool.false_ne_true (clear.symm.trans ((controlBit_iff _).2 hset)), used⟩
    | tokenShort _ set few => exact ⟨hp, (controlBit_iff _).1 set, few⟩
    | literal => simp [hp] at ht
    | matchToken => simp at ht
  | copy hp move =>
    cases move with
    | finished => simp at ht
    | underflow _ before => exact ⟨hp, before⟩
    | cut _ _ full => exact ⟨hp, full⟩
    | copied => exact absurd ht (countDown_emit_not_halted _ hp)

end Sys2Proof.Machine
end

section
/-! PROOFS of the invariants: the indices and the written output through every step of the engine, the bounds of a decode
under way, and the invariant of the state through every event (R14, R16, R19, R21 to R23, R107, R109). -/

namespace Sys2Proof.Machine

open Sys2Proof.Safety

/-! The indices. -/

/-- From `s` to `t` no index passes its limit or goes back, and what lies below the cursor is written (R21 to R23). -/
structure IndicesKept (s t : State) : Prop where
  in_bound : t.inIdx ≤ t.inLen
  out_bound : t.outIdx ≤ t.outCap
  in_forward : s.inIdx ≤ t.inIdx
  out_forward : s.outIdx ≤ t.outIdx
  written : ∀ a, a < t.outIdx.toNat → (Memory.read t.outMem a).isSome = true

/-- A step that leaves both indices and the output as they were. -/
theorem indicesKept_of_same {s t : State} (h : DecodeBounds s) (hin : t.inIdx = s.inIdx) (hlen : t.inLen = s.inLen)
    (hout : t.outIdx = s.outIdx) (hcap : t.outCap = s.outCap) (hmem : t.outMem = s.outMem) : IndicesKept s t := by
  refine ⟨?_, ?_, ?_, ?_, ?_⟩
  · rw [hin, hlen]; exact h.in_bound
  · rw [hout, hcap]; exact h.out_bound
  · rw [hin]; exact BitVec.le_refl _
  · rw [hout]; exact BitVec.le_refl _
  · rw [hout, hmem]; exact h.written

/-- One byte more is written, and the cursor is one further. -/
theorem written_emit {s : State} (v : Byte) (hroom : s.outIdx < s.outCap)
    (h : ∀ a, a < s.outIdx.toNat → (Memory.read s.outMem a).isSome = true) :
    ∀ a, a < (emit v s).outIdx.toNat → (Memory.read (emit v s).outMem a).isSome = true := by
  intro a ha
  rw [emit_outIdx, (word_succ_of_lt hroom).1] at ha
  rw [emit_outMem, memory_read_write]
  split
  · rfl
  · exact h a (by omega)

/-- The refill keeps the indices. -/
theorem indicesKept_tokenState {s : State} (h : DecodeBounds s) (passed : GuardPassed s) :
    IndicesKept s (tokenState s) := by
  obtain ⟨hsum, hlow, -⟩ := tokenState_bounds passed.refill passed.more
  refine ⟨?_, ?_, hlow, ?_, ?_⟩
  · rw [BitVec.le_def, tokenState_inLen]; omega
  · simpa using h.out_bound
  · simp
  · simpa using h.written

theorem tokenMove_indicesKept {s t : State} (h : DecodeBounds s) (move : TokenMove s t) : IndicesKept s t := by
  cases move with
  | outFull => exact indicesKept_of_same h rfl rfl rfl rfl rfl
  | inEmpty => exact indicesKept_of_same h rfl rfl rfl rfl rfl
  | refillShort => exact indicesKept_of_same h rfl rfl rfl rfl rfl
  | litShort passed | tokenShort passed =>
    obtain ⟨hin, hout, hinF, houtF, hwritten⟩ := indicesKept_tokenState h passed
    exact ⟨hin, hout, hinF, houtF, hwritten⟩
  | literal passed _ one =>
    obtain ⟨hin, hout, hinF, houtF, hwritten⟩ := indicesKept_tokenState h passed
    obtain ⟨-, hle, hforward, -⟩ := tokenState_consume_inIdx (u := emit _ (tokenState s)) rfl passed one
    obtain ⟨hsucc, hcap⟩ := word_succ_of_lt (x := (tokenState s).outIdx) (y := (tokenState s).outCap)
      (by simpa using passed.room)
    refine ⟨?_, hcap, ?_, ?_, written_emit _ (by simpa using passed.room) hwritten⟩
    · rw [BitVec.le_def, consume_inLen, emit_inLen, tokenState_inLen]; exact hle
    · rw [BitVec.le_def]; omega
    · rw [BitVec.le_def, consume_outIdx, emit_outIdx, hsucc, tokenState_outIdx]; omega
  | matchToken passed _ _ fits len off =>
    obtain ⟨hin, hout, hinF, houtF, hwritten⟩ := indicesKept_tokenState h passed
    obtain ⟨-, hle, hforward, -⟩ := tokenState_consume_inIdx (u := latchMatch len off (tokenState s)) rfl passed fits
    refine ⟨?_, hout, ?_, houtF, hwritten⟩
    · rw [BitVec.le_def, consume_inLen, latchMatch_inLen, tokenState_inLen]; exact hle
    · rw [BitVec.le_def]; omega

theorem copyMove_indicesKept {s t : State} (h : DecodeBounds s) (move : CopyMove s t) : IndicesKept s t := by
  cases move with
  | finished => exact indicesKept_of_same h rfl rfl rfl rfl rfl
  | underflow => exact indicesKept_of_same h rfl rfl rfl rfl rfl
  | cut => exact indicesKept_of_same h rfl rfl rfl rfl rfl
  | copied _ _ room =>
    obtain ⟨hsucc, hcap⟩ := word_succ_of_lt room
    refine ⟨h.in_bound, hcap, BitVec.le_refl _, ?_, written_emit _ room h.written⟩
    rw [BitVec.le_def, countDown_outIdx, emit_outIdx, hsucc]; omega

/-- Settles O42: the indices are kept by every outcome of either phase. -/
theorem indicesStayInBounds : Obligations.IndicesStayInBounds := by
  unfold Obligations.IndicesStayInBounds
  intro s t hinv hh hbusy hs
  have hkept : IndicesKept s t := by
    rcases hbusy with hp | hp
    · exact tokenMove_indicesKept (hinv.run hp) (tokenMove_of_step hh hp hs)
    · exact copyMove_indicesKept (hinv.copy hp).1 (copyMove_of_step hh hp hs)
  exact ⟨hkept.in_bound, hkept.out_bound, hkept.in_forward, hkept.out_forward, hkept.written⟩

/-! A decode under way. -/

/-- The two phases of a decode under way, with their bounds. -/
def UnderWay (s : State) : Prop :=
  (s.phase = .run ∧ DecodeBounds s) ∨ (s.phase = .copy ∧ DecodeBounds s ∧ CopyBounds s)

/-- The decode is over, and says why (R19, R130). -/
def HaltedWithCause (s : State) : Prop := s.phase = .halted ∧ s.cause ≠ .none

theorem haltedWithCause_raiseHalt {c : Cause} (h : c ≠ .none) (s : State) : HaltedWithCause (raiseHalt c s) := ⟨rfl, h⟩

theorem indicesKept_decodeBounds {s t : State} (h : IndicesKept s t) (hbit : t.bitPos.toNat ≤ 30)
    (hcause : t.cause = .none) : DecodeBounds t :=
  ⟨h.in_bound, h.out_bound, h.written, hbit, hcause⟩

/-- A token step goes on within the bounds, in RUN or at the first byte of a copy, or halts with a cause. -/
theorem tokenMove_underWay {s t : State} (hp : s.phase = .run) (h : DecodeBounds s) (move : TokenMove s t) :
    UnderWay t ∨ HaltedWithCause t := by
  have hkept := tokenMove_indicesKept h move
  have hbit : (tokenState s).bitPos.toNat ≤ 30 := by rw [tokenState_bitPos h.bit_bound]; omega
  have hcause : (tokenState s).cause = .none := (tokenState_cause s).trans h.no_cause
  cases move with
  | outFull => exact .inr (haltedWithCause_raiseHalt (by decide) _)
  | inEmpty => exact .inr (haltedWithCause_raiseHalt (by decide) _)
  | refillShort => exact .inr (haltedWithCause_raiseHalt (by decide) _)
  | litShort => exact .inr (haltedWithCause_raiseHalt (by decide) _)
  | tokenShort => exact .inr (haltedWithCause_raiseHalt (by decide) _)
  | literal => exact .inl (.inl ⟨(tokenState_phase s).trans hp, indicesKept_decodeBounds hkept hbit hcause⟩)
  | matchToken passed _ _ _ len _ _ len_low len_high =>
    refine .inl (.inr ⟨rfl, indicesKept_decodeBounds hkept hbit hcause, ?_⟩)
    exact ⟨len_low, len_high, (by decide : 1 ≤ 3).trans len_low, le_refl _, fun _ => by simpa using passed.room,
      fun hlt => absurd hlt (lt_irrefl _)⟩

/-- A copy step goes on within the bounds, its source inside the output from then on, or halts with a cause (R109). -/
theorem copyMove_underWay {s t : State} (hp : s.phase = .copy) (h : DecodeBounds s) (hc : CopyBounds s)
    (move : CopyMove s t) : UnderWay t ∨ HaltedWithCause t := by
  have hkept := copyMove_indicesKept h move
  cases move with
  | finished zero => exact absurd hc.cnt_low (by rw [zero]; decide)
  | underflow => exact .inr (haltedWithCause_raiseHalt (by decide) _)
  | cut => exact .inr (haltedWithCause_raiseHalt (by decide) _)
  | copied count source room =>
    obtain ⟨hpred, hpos⟩ := count_pred count
    have hbounds := indicesKept_decodeBounds hkept h.bit_bound h.no_cause
    by_cases hlast : s.cnt - 1 = 0
    · exact .inl (.inl ⟨if_pos hlast, hbounds⟩)
    · refine .inl (.inr ⟨(if_neg hlast).trans hp, hbounds, hc.len_low, hc.len_high, ?_, ?_, ?_, ?_⟩)
      · exact Nat.one_le_iff_ne_zero.2 (count_pred hlast).2
      · rw [countDown_cnt, emit_cnt, hpred]; exact (Nat.sub_le _ _).trans hc.cnt_high
      · intro hfirst
        have hcnt : (s.cnt - 1).toNat = s.mLen.toNat := congrArg BitVec.toNat hfirst
        have := hc.cnt_high
        omega
      · intro _
        rw [countDown_outIdx, emit_outIdx, (word_succ_of_lt room).1]
        exact Nat.lt_succ_of_lt source

theorem engineMove_underWay {s t : State} (h : UnderWay s) (move : EngineMove s t) :
    UnderWay t ∨ HaltedWithCause t := by
  rcases h with ⟨hp, hb⟩ | ⟨hp, hb, hc⟩
  · cases move with
    | rest phase => simp [hp] at phase
    | token _ move => exact tokenMove_underWay hp hb move
    | copy phase => simp [hp] at phase
  · cases move with
    | rest phase => simp [hp] at phase
    | token phase => simp [hp] at phase
    | copy _ move => exact copyMove_underWay hp hb hc move

/-! The invariant of the state. -/

/-- The invariant, phase by phase. -/
theorem engineInv_iff (s : State) : EngineInv s ↔
    Memory.wf s.inMem = true ∧ Memory.wf s.outMem = true ∧
      ((s.phase = .idle ∧ s.cause = .none) ∨ UnderWay s ∨ HaltedWithCause s) := by
  constructor
  · rintro ⟨hin, hout, hidle, hrun, hcopy, hhalted⟩
    refine ⟨hin, hout, ?_⟩
    cases hp : s.phase with
    | idle => exact .inl ⟨rfl, hidle hp⟩
    | run => exact .inr (.inl (.inl ⟨hp, hrun hp⟩))
    | copy => exact .inr (.inl (.inr ⟨hp, hcopy hp⟩))
    | halted => exact .inr (.inr ⟨hp, hhalted hp⟩)
  · rintro ⟨hin, hout, ⟨hp, hcause⟩ | (⟨hp, hb⟩ | ⟨hp, hb⟩) | ⟨hp, hcause⟩⟩
    · exact ⟨hin, hout, fun _ => hcause, by simp [hp], by simp [hp], by simp [hp]⟩
    · exact ⟨hin, hout, by simp [hp], fun _ => hb, by simp [hp], by simp [hp]⟩
    · exact ⟨hin, hout, by simp [hp], by simp [hp], fun _ => hb, by simp [hp]⟩
    · exact ⟨hin, hout, by simp [hp], by simp [hp], by simp [hp], fun _ => hcause⟩

/-- A write of one output byte at most keeps the canonical form; `IN` is not written (R35, R43). -/
theorem engineMove_canonical {s t : State} (hin : Memory.wf s.inMem = true) (hout : Memory.wf s.outMem = true)
    (move : EngineMove s t) : Memory.wf t.inMem = true ∧ Memory.wf t.outMem = true := by
  cases move with
  | rest => exact ⟨hin, hout⟩
  | token _ move =>
    cases move with
    | literal => exact ⟨by simpa using hin, memory_wf_write _ _ (by simpa using hout)⟩
    | _ => simp [hin, hout]
  | copy _ move =>
    cases move with
    | copied => exact ⟨hin, memory_wf_write _ _ hout⟩
    | _ => exact ⟨hin, hout⟩

theorem engineInv_engineMove {s t : State} (h : EngineInv s) (move : EngineMove s t) : EngineInv t := by
  obtain ⟨hin, hout, hphase⟩ := (engineInv_iff s).1 h
  obtain ⟨hin', hout'⟩ := engineMove_canonical hin hout move
  refine (engineInv_iff t).2 ⟨hin', hout', ?_⟩
  rcases hphase with ⟨hp, hcause⟩ | hway | ⟨hp, hcause⟩
  · cases move with
    | rest => exact .inl ⟨hp, hcause⟩
    | token phase => simp [hp] at phase
    | copy phase => simp [hp] at phase
  · exact .inr (engineMove_underWay hway move)
  · cases move with
    | rest => exact .inr (.inr ⟨hp, hcause⟩)
    | token phase => simp [hp] at phase
    | copy phase => simp [hp] at phase

/-- The invariant does not speak of the host's list or of what the host has read. -/
theorem engineInv_record {s : State} (h : EngineInv s) (host : List HostEvent) (data : Option Word) (draws : Nat) :
    EngineInv { s with host := host, hostData := data, draws := draws } :=
  have bounds (b : DecodeBounds s) : DecodeBounds { s with host := host, hostData := data, draws := draws } :=
    ⟨b.in_bound, b.out_bound, b.written, b.bit_bound, b.no_cause⟩
  have copyBounds (c : CopyBounds s) : CopyBounds { s with host := host, hostData := data, draws := draws } :=
    ⟨c.len_low, c.len_high, c.cnt_low, c.cnt_high, c.first_has_room, c.later_has_source⟩
  ⟨h.in_canonical, h.out_canonical, h.idle, fun hp => bounds (h.run hp),
    fun hp => ⟨bounds (h.copy hp).1, copyBounds (h.copy hp).2⟩, h.halted⟩

/-- Outside a decode the invariant speaks only of the memories, the phase and the cause. -/
theorem engineInv_of_not_busy {s t : State} (h : EngineInv s) (hb : busy s = false) (hphase : t.phase = s.phase)
    (hcause : t.cause = s.cause) (hin : Memory.wf t.inMem = true) (hout : Memory.wf t.outMem = true) : EngineInv t := by
  have hidle : ¬ (t.phase = .run ∨ t.phase = .copy) := by
    rw [hphase, ← busy_iff, hb]; decide
  exact ⟨hin, hout, by rw [hphase, hcause]; exact h.idle, fun hp => absurd (.inl hp) hidle,
    fun hp => absurd (.inr hp) hidle, by rw [hphase, hcause]; exact h.halted⟩

/-- START begins within the bounds: both indices 0, the position 30, nothing below the cursor (R27). -/
theorem decodeBounds_beginDecode (s : State) : DecodeBounds (beginDecode s) :=
  ⟨Nat.zero_le _, Nat.zero_le _, by simp, by simp [Config.bitPosInit], rfl⟩

/-- Every event keeps the invariant: the engine's turn, START, reset, a write outside a decode, a read. -/
theorem engineInv_hostAct {e : HostEvent} {s t : State} (h : EngineInv s) (hact : hostAct e s = .next t) :
    EngineInv t := by
  rcases hostAct_cases hact with ⟨-, hengine⟩ | ⟨-, -, rfl⟩ | ⟨-, rfl⟩ | ⟨hb, hwrite⟩ | ⟨-, -, -, hread⟩
  · exact engineInv_engineMove h (engineMove_of_engineStep hengine)
  · exact (engineInv_iff _).2 ⟨h.in_canonical, h.out_canonical, .inr (.inl (.inl ⟨rfl, decodeBounds_beginDecode s⟩))⟩
  · exact (engineInv_iff _).2 ⟨rfl, rfl, .inl ⟨rfl, rfl⟩⟩
  · rcases hwrite with ⟨_, -, rfl⟩ | ⟨_, -, rfl⟩ | ⟨_, _, -, rfl⟩ | ⟨_, _, -, rfl⟩
    · exact engineInv_of_not_busy h hb rfl rfl h.in_canonical h.out_canonical
    · exact engineInv_of_not_busy h hb rfl rfl h.in_canonical h.out_canonical
    · exact engineInv_of_not_busy h hb rfl rfl (memory_wf_write _ _ h.in_canonical) h.out_canonical
    · exact engineInv_of_not_busy h hb rfl rfl h.in_canonical (memory_wf_write _ _ h.out_canonical)
  · rw [hread]
    exact engineInv_record h _ _ _

/-- Settles O40: the next event keeps it or, with none listed, the engine's own move. -/
theorem stepKeepsInvariant : Obligations.StepKeepsInvariant := by
  unfold Obligations.StepKeepsInvariant
  intro s t hinv hs
  cases hh : s.host with
  | nil => exact engineInv_engineMove hinv (engineMove_of_step hh hs)
  | cons e rest =>
    rw [step_event hh] at hs
    exact engineInv_hostAct (engineInv_record hinv rest s.hostData s.draws) hs

/-- Settles O41: IDLE without a cause, both memories empty. -/
theorem resetMeetsInvariant : Obligations.ResetMeetsInvariant :=
  (engineInv_iff _).2 ⟨reset_inMem_wf, reset_outMem_wf, .inl ⟨rfl, rfl⟩⟩

/-- The first byte of a copy has room and every later one a source, so a copy that underflows does so with room left
(R107, R109). -/
theorem room_of_underflow {s : State} (hc : CopyBounds s) (before : s.outIdx.toNat ≤ s.mOff.toNat) :
    s.outIdx < s.outCap := by
  refine hc.first_has_room (BitVec.eq_of_toNat_eq (le_antisymm hc.cnt_high ?_))
  by_contra hlater
  exact absurd (hc.later_has_source (not_le.1 hlater)) (not_lt.2 before)

/-- Settles O39: the causes 1 and 7 are recorded at the limit, which the invariant does not let the cursor pass, and each
other halt has room left. -/
theorem completeExactlyWhenOutputFilled : Obligations.CompleteExactlyWhenOutputFilled := by
  unfold Obligations.CompleteExactlyWhenOutputFilled
  intro s t hinv hh hbusy hs ht
  have complete (hbound : s.outIdx ≤ s.outCap) (hfull : s.outCap ≤ s.outIdx) : s.outIdx = s.outCap :=
    BitVec.le_antisymm hbound hfull
  have incomplete (hroom : s.outIdx < s.outCap) : s.outIdx ≠ s.outCap := BitVec.ne_of_lt hroom
  cases engineMove_of_step hh hs with
  | rest phase => rcases hbusy with hp | hp <;> simp [hp] at phase
  | token hp move =>
    cases move with
    | outFull full => simpa using complete (hinv.run hp).out_bound full
    | inEmpty room => simpa using incomplete room
    | refillShort room => simpa using incomplete room
    | litShort passed => simpa using incomplete passed.room
    | tokenShort passed => simpa using incomplete passed.room
    | literal => simp [hp] at ht
    | matchToken => simp at ht
  | copy hp move =>
    obtain ⟨hb, hc⟩ := hinv.copy hp
    cases move with
    | finished => simp at ht
    | underflow _ before => simpa using incomplete (room_of_underflow hc before)
    | cut _ _ full => simpa using complete hb.out_bound full
    | copied => exact absurd ht (countDown_emit_not_halted _ hp)

end Sys2Proof.Machine
end

section
/-! PROOFS of the host's side: what each event does, in which phases a step is refused, and the set-up of a decode
(R20, R26, R27, R44, R115 to R121, R145, R148). -/

namespace Sys2Proof.Machine

open Sys2Proof.Safety

/-! Events. -/

theorem not_busy_of_resting {s : State} (h : s.phase = .idle ∨ s.phase = .halted) : busy s = false := by
  rcases h with h | h <;> simp [busy, h]

/-- What the four writes that the host may make only outside a decode do (R20, R24, R116). -/
def writeEffect (e : HostEvent) : Option (State → State) :=
  match e with
  | .writeInLen v => some fun t => { t with inLen := v }
  | .writeOutCap v => some fun t => { t with outCap := v }
  | .storeIn a v => some fun t => { t with inMem := Memory.write t.inMem a.toNat v }
  | .storeOut a v => some fun t => { t with outMem := Memory.write t.outMem a.toNat v }
  | _ => none

theorem hostAct_writeEffect {e : HostEvent} {f : State → State} (h : writeEffect e = some f) (s : State) :
    hostAct e s = hostWrite f s := by
  cases e with
  | writeInLen v => cases h; rfl
  | writeOutCap v => cases h; rfl
  | storeIn a v => cases h; rfl
  | storeOut a v => cases h; rfl
  | engineTurn => cases h
  | writeStart v => cases h
  | readReg r => cases h
  | readOut a => cases h
  | hardReset => cases h

/-- Outside a decode such a write takes effect (R116). -/
theorem step_write_resting {s : State} {e : HostEvent} {rest : List HostEvent} {f : State → State}
    (hh : s.host = e :: rest) (hf : writeEffect e = some f) (hp : s.phase = .idle ∨ s.phase = .halted) :
    step s = .next (f { s with host := rest }) := by
  have hfree : busy { s with host := rest } = false := not_busy_of_resting hp
  rw [step_event hh, hostAct_writeEffect hf, hostWrite, hfree]
  rfl

/-- During a decode it is refused (R121, U8). -/
theorem step_write_busy {s : State} {e : HostEvent} {rest : List HostEvent} {f : State → State}
    (hh : s.host = e :: rest) (hf : writeEffect e = some f) (hp : s.phase = .run ∨ s.phase = .copy) :
    step s = .refused .hostWriteWhileBusy := by
  have hbusy : busy { s with host := rest } = true := (busy_iff _).2 hp
  rw [step_event hh, hostAct_writeEffect hf, hostWrite, hbusy]
  rfl

theorem step_write_outcome {s : State} {e : HostEvent} {rest : List HostEvent} {f : State → State}
    (hh : s.host = e :: rest) (hf : writeEffect e = some f) :
    (∃ t, step s = .next t) ∨
      (step s = .refused .hostWriteWhileBusy ∧ (s.phase = .run ∨ s.phase = .copy)) := by
  cases hp : s.phase with
  | idle => exact .inl ⟨_, step_write_resting hh hf (.inl hp)⟩
  | run => exact .inr ⟨step_write_busy hh hf (.inl hp), .inl rfl⟩
  | copy => exact .inr ⟨step_write_busy hh hf (.inr hp), .inr rfl⟩
  | halted => exact .inl ⟨_, step_write_resting hh hf (.inr hp)⟩

/-- Settles O1: neither the reset state nor the event depends on the phase before, and IDLE has no step of its own. -/
theorem hardResetEntersIdle : Obligations.HardResetEntersIdle := by
  unfold Obligations.HardResetEntersIdle
  refine ⟨rfl, rfl, fun s rest hh => ⟨_, step_event hh, rfl, rfl, rfl, fun hrest => ?_⟩⟩
  exact (step_alone hrest).trans rfl

/-- START written with 1 outside a decode begins one (R117). -/
theorem step_start_resting {s : State} {rest : List HostEvent} (hh : s.host = .writeStart 1 :: rest)
    (hp : s.phase = .idle ∨ s.phase = .halted) : step s = .next (beginDecode { s with host := rest }) := by
  have hfree : busy { s with host := rest } = false := not_busy_of_resting hp
  rw [step_event hh, hostAct, writeStart, hfree]
  rfl

/-- Settles O2: START takes effect where 1 is written and no decode is under way. -/
theorem startBeginsADecode : Obligations.StartBeginsADecode := by
  unfold Obligations.StartBeginsADecode
  intro s v rest hh
  refine ⟨fun hv hp => ?begins, fun hignored => ?ignored⟩
  case begins =>
    subst hv
    exact step_start_resting hh hp
  case ignored =>
    have hcond : ¬ (v = 1 ∧ ¬ busy { s with host := rest } = true) := by
      rintro ⟨hv, hfree⟩
      rcases hignored with h0 | hbusy
      · exact absurd (h0.symm.trans hv) (by decide)
      · exact hfree ((busy_iff _).2 hbusy)
    rw [step_event hh, hostAct, writeStart, if_neg hcond]

/-- Settles O3: a parameter write is a host write. -/
theorem parametersHoldWhatIsWritten : Obligations.ParametersHoldWhatIsWritten := by
  unfold Obligations.ParametersHoldWhatIsWritten
  intro s v rest
  refine ⟨fun hh hp => ?inLen, fun hh hp => ?outCap, fun hh hp => ?refused⟩
  case inLen => exact step_write_resting hh rfl hp
  case outCap => exact step_write_resting hh rfl hp
  case refused =>
    rcases hh with hh | hh
    · exact step_write_busy hh rfl hp
    · exact step_write_busy hh rfl hp

/-- Settles O4: read after write in `IN`; `OUT` is another memory. -/
theorem storedInputByteIsThere : Obligations.StoredInputByteIsThere := by
  unfold Obligations.StoredInputByteIsThere
  intro s a v rest hh hp
  refine ⟨_, step_write_resting hh rfl hp, ?_, fun b hb => ?_, fun b => outByte_congr rfl rfl b, rfl, rfl, rfl⟩
  · simp [inByte]
  · simp [inByte, memory_read_write_other _ _ hb]

/-- Settles O5: each read answers the named register or byte where its phase lets it. -/
theorem hostReadsReturnTheResult : Obligations.HostReadsReturnTheResult := by
  unfold Obligations.HostReadsReturnTheResult
  intro s rest
  refine ⟨fun hh => ?state, fun hh hp => ?outLen, fun a hh hp ha => ?out, fun hh hp => ?inLen, fun hh hp => ?outCap⟩
  case state =>
    rw [step_event hh]
    cases s.phase <;> simp [hostAct, hostReadReg, answer, phaseCode]
  case outLen =>
    rw [step_event hh]
    simp [hostAct, hostReadReg, answer, hp]
  case out =>
    rw [step_event hh, BitVec.ofNat_toNat]
    simp only [hostAct, hostReadOut, answer, hp, ha, and_self, if_true]
    rfl
  case inLen =>
    rw [step_event hh]
    have hfree : busy { s with host := rest } = false := not_busy_of_resting hp
    simp [hostAct, hostReadReg, answer, hfree]
  case outCap =>
    rw [step_event hh]
    have hfree : busy { s with host := rest } = false := not_busy_of_resting hp
    simp [hostAct, hostReadReg, answer, hfree]

/-- A read of a register changes only the record of what was read (R20, assumption 7). -/
theorem hostReadReg_record (r : HostReg) (s : State) :
    hostReadReg r s = { s with hostData := (hostReadReg r s).hostData, draws := (hostReadReg r s).draws } := by
  cases r with
  | inLen => simp only [hostReadReg]; split <;> rfl
  | outCap => simp only [hostReadReg]; split <;> rfl
  | start => rfl
  | state => rfl
  | outLen => simp only [hostReadReg]; split <;> rfl

/-- A read of a byte of `OUT` changes only the record of what was read (R44, assumption 7). -/
theorem hostReadOut_record (a : Word) (s : State) :
    hostReadOut a s = { s with hostData := (hostReadOut a s).hostData, draws := (hostReadOut a s).draws } := by
  simp only [hostReadOut]
  split <;> rfl

/-- Settles O6: a read is always answered. -/
theorem hostReadsChangeNothingElse : Obligations.HostReadsChangeNothingElse := by
  unfold Obligations.HostReadsChangeNothingElse
  rintro s rest e hh (⟨r, rfl⟩ | ⟨a, rfl⟩)
  · exact ⟨_, step_event hh, hostReadReg_record r _⟩
  · exact ⟨_, step_event hh, hostReadOut_record a _⟩

/-- Settles O7: the order of events of `advance`. -/
theorem engineMovesWhenItIsItsTurn : Obligations.EngineMovesWhenItIsItsTurn := by
  unfold Obligations.EngineMovesWhenItIsItsTurn
  exact fun s => ⟨step_alone, fun _ hh => step_event hh⟩

/-- Settles O8: the engine always has a next state, so do START, reads and reset, and the four host writes are refused
only while RUN or COPY. -/
theorem stepStopsOnlyOnBusyHostWrite : Obligations.StepStopsOnlyOnBusyHostWrite := by
  unfold Obligations.StepStopsOnlyOnBusyHostWrite
  intro s
  cases hh : s.host with
  | nil =>
    obtain ⟨t, hstep, -⟩ := engineStep_move s
    exact .inl ⟨t, (step_alone hh).trans hstep⟩
  | cons e rest =>
    have write {f : State → State} (hf : writeEffect e = some f) := step_write_outcome hh hf
    cases e with
    | engineTurn =>
      obtain ⟨t, hstep, -⟩ := engineStep_move { s with host := rest }
      exact .inl ⟨t, (step_event hh).trans hstep⟩
    | writeInLen v => exact (write rfl).imp_right fun ⟨h, hp⟩ => ⟨h, hp, _, rest, rfl, .inl ⟨v, rfl⟩⟩
    | writeOutCap v => exact (write rfl).imp_right fun ⟨h, hp⟩ => ⟨h, hp, _, rest, rfl, .inr (.inl ⟨v, rfl⟩)⟩
    | storeIn a v => exact (write rfl).imp_right fun ⟨h, hp⟩ => ⟨h, hp, _, rest, rfl, .inr (.inr (.inl ⟨a, v, rfl⟩))⟩
    | storeOut a v => exact (write rfl).imp_right fun ⟨h, hp⟩ => ⟨h, hp, _, rest, rfl, .inr (.inr (.inr ⟨a, v, rfl⟩))⟩
    | writeStart v => exact .inl ⟨_, step_event hh⟩
    | readReg r => exact .inl ⟨_, step_event hh⟩
    | readOut a => exact .inl ⟨_, step_event hh⟩
    | hardReset => exact .inl ⟨_, step_event hh⟩

/-- Settles O36: without START and reset an event changes a parameter, a byte of a memory or the record of reads, and
only a store to `OUT` reaches the result. -/
theorem resultStaysUntilStart : Obligations.ResultStaysUntilStart := by
  unfold Obligations.ResultStaysUntilStart
  intro s t hp hs hstart hreset
  cases hh : s.host with
  | nil =>
    obtain rfl : s = t := by simpa [step_halted hp hh] using hs
    exact ⟨hp, rfl, rfl, fun _ => rfl⟩
  | cons e rest =>
    rw [step_event hh] at hs
    rw [hh] at hstart hreset
    rcases hostAct_cases hs with ⟨-, hengine⟩ | ⟨rfl, -⟩ | ⟨rfl, -⟩ | ⟨-, hwrite⟩ | ⟨-, -, -, hread⟩
    · obtain rfl : { s with host := rest } = t := by
        simpa [engineStep_halted (s := { s with host := rest }) hp] using hengine
      exact ⟨hp, rfl, rfl, fun _ => rfl⟩
    · exact absurd rfl hstart
    · exact absurd rfl hreset
    · rcases hwrite with ⟨_, -, rfl⟩ | ⟨_, -, rfl⟩ | ⟨_, _, -, rfl⟩ | ⟨a, v, rfl, rfl⟩
      · exact ⟨hp, rfl, rfl, fun _ => rfl⟩
      · exact ⟨hp, rfl, rfl, fun _ => rfl⟩
      · exact ⟨hp, rfl, rfl, fun _ => rfl⟩
      · exact ⟨hp, rfl, rfl, fun hstore => absurd rfl (hstore a v)⟩
    · rw [hread]
      exact ⟨hp, rfl, rfl, fun _ => rfl⟩

/-! The token step. -/

/-- Settles O9: the guard's tests in their order. -/
theorem loopGuardTestsOutputFirst : Obligations.LoopGuardTestsOutputFirst := by
  unfold Obligations.LoopGuardTestsOutputFirst
  intro s hh hp
  rw [step_alone hh, engineStep_run hp]
  rcases tokenStep_cases s with ⟨hfull, hstep⟩ | ⟨hroom, hused, hstep⟩ | ⟨hroom, hmore, hstep⟩
  · exact ⟨fun _ => hstep, fun hroom => absurd hroom (BitVec.not_lt.2 hfull),
      fun hroom => absurd hroom (BitVec.not_lt.2 hfull)⟩
  · exact ⟨fun hfull => absurd hroom (BitVec.not_lt.2 hfull), fun _ _ => hstep,
      fun _ hmore => absurd hmore (BitVec.not_lt.2 hused)⟩
  · exact ⟨fun hfull => absurd hroom (BitVec.not_lt.2 hfull), fun _ hused => absurd hmore (BitVec.not_lt.2 hused),
      fun _ _ => hstep⟩

/-- Settles O11: the tested bit is the one `controlBit` reads. -/
theorem controlBitSelectsTheToken : Obligations.ControlBitSelectsTheToken := by
  unfold Obligations.ControlBitSelectsTheToken
  exact fun s => ⟨fun h => runToken_clear ((controlBit_false_iff s).2 h), fun h => runToken_set ((controlBit_iff s).2 h)⟩

/-- Settles O12: with the guard passed the step is the token's in `tokenState`, which the IND of the window leaves where
a refill is due. -/
theorem stepRunsTheDecodedInstruction : Obligations.StepRunsTheDecodedInstruction := by
  unfold Obligations.StepRunsTheDecodedInstruction
  intro s hh hp ho hi h4
  have hdue := bitPos_reaches_iff s
  have hstep : step s = runToken (tokenState s) := by
    rw [step_of_guard hh hp ho hi, afterGuard_token hp fun h => h4 (hdue.1 h)]
  refine ⟨fun hb => ?indicator, fun hb => tokenState_same (mt hdue.1 hb), fun i hdec => ?element, fun why hdec => ?short⟩
  case indicator =>
    refine ⟨indWord (inByte s s.inIdx.toNat) (inByte s (s.inIdx.toNat + 1)) (inByte s (s.inIdx.toNat + 2))
      (inByte s (s.inIdx.toNat + 3)), ?_, ?_⟩
    · rw [inputWindow_four (s := advanceBit s) (h4 hb)]
      rfl
    · rw [exec_ind_loads _ (s := advanceBit s) (h4 hb), tokenState_refill (hdue.2 hb)]
  case element => rw [hstep, runToken, fetchAndRun_of_element hdec]
  case short => rw [hstep, runToken, fetchAndRun_of_short hdec]

/-! The set-up. -/

/-- The stores of a stretch of the payload, from index `k` on. -/
def storeEvents (bytes : List Byte) (k : Nat) : List HostEvent :=
  (bytes.zipIdx k).map fun p => .storeIn (BitVec.ofNat 32 p.2) p.1

/-- `IN` after those stores. -/
def storeBytes (bytes : List Byte) (k : Nat) (m : Memory) : Memory :=
  match bytes with
  | [] => m
  | v :: rest => storeBytes rest (k + 1) (Memory.write m k v)

/-- What a stored stretch reads back as; below it nothing changes (R24). -/
theorem read_storeBytes (bytes : List Byte) (k : Nat) (m : Memory) :
    (∀ a, a < k → Memory.read (storeBytes bytes k m) a = Memory.read m a) ∧
    (∀ j, j < bytes.length → Memory.read (storeBytes bytes k m) (k + j) = bytes[j]?) := by
  induction bytes generalizing k m with
  | nil => exact ⟨fun _ _ => rfl, by simp⟩
  | cons v rest ih =>
    obtain ⟨hbelow, hstored⟩ := ih (k + 1) (Memory.write m k v)
    refine ⟨fun a ha => ?_, fun j hj => ?_⟩
    · rw [storeBytes, hbelow a (by omega), memory_read_write_other _ _ (by omega)]
    · cases j with
      | zero => exact (hbelow k (by omega)).trans (memory_read_write_same m k v)
      | succ j =>
        rw [storeBytes, show k + (j + 1) = k + 1 + j by omega, hstored j (by simpa using hj)]
        rfl

/-- The host's stores of a stretch, one step each, outside a decode. -/
theorem runSteps_storeEvents (bytes : List Byte) (k : Nat) {s : State} {rest : List HostEvent}
    (hbound : k + bytes.length ≤ 2 ^ 32) (hp : s.phase = .idle ∨ s.phase = .halted)
    (hh : s.host = storeEvents bytes k ++ rest) :
    runSteps bytes.length s = .next { s with host := rest, inMem := storeBytes bytes k s.inMem } := by
  induction bytes generalizing k s with
  | nil =>
    obtain rfl : s.host = rest := by simpa [storeEvents] using hh
    rfl
  | cons v bytes ih =>
    have hindex : (BitVec.ofNat 32 k).toNat = k := by
      rw [BitVec.toNat_ofNat, Nat.mod_eq_of_lt]
      rw [List.length_cons] at hbound
      omega
    have hstep : step s = .next { s with
        host := storeEvents bytes (k + 1) ++ rest, inMem := Memory.write s.inMem k v } := by
      rw [step_write_resting (e := .storeIn (BitVec.ofNat 32 k) v) (rest := storeEvents bytes (k + 1) ++ rest)
        (by simpa [storeEvents] using hh) rfl hp, hindex]
    rw [List.length_cons, runSteps_succ hstep]
    exact ih (k + 1) (by rw [List.length_cons] at hbound; omega) hp rfl

/-- The last three events of the set-up, outside a decode (R116, R117). -/
theorem runSteps_parameters_start {s : State} {inLen cap : Word} (hp : s.phase = .idle ∨ s.phase = .halted)
    (hh : s.host = [.writeInLen inLen, .writeOutCap cap, .writeStart 1]) :
    runSteps 3 s = .next (beginDecode { s with host := [], inLen := inLen, outCap := cap }) := by
  have hlen := step_write_resting hh rfl hp
  have hcap := step_write_resting (s := { s with host := [.writeOutCap cap, .writeStart 1], inLen := inLen }) rfl rfl hp
  have hstart := step_start_resting
    (s := { s with host := [.writeStart 1], inLen := inLen, outCap := cap }) rfl hp
  exact (runSteps_succ hlen).trans ((runSteps_succ hcap).trans (runSteps_succ hstart))

/-- Settles O47: the stores load `IN`, and the last three events are the parameters and START. -/
theorem setUpLaunchesTheDecode : Obligations.SetUpLaunchesTheDecode := by
  unfold Obligations.SetUpLaunchesTheDecode
  intro payload cap s hlen hp hh
  have hstores := runSteps_storeEvents payload 0 (by omega) hp hh
  have hstart := runSteps_parameters_start (s := { s with
      host := [.writeInLen (BitVec.ofNat 32 payload.length), .writeOutCap cap, .writeStart 1]
      inMem := storeBytes payload 0 s.inMem }) hp rfl
  refine ⟨_, (runSteps_add hstores).trans hstart, rfl, rfl, rfl, rfl, rfl, ?_, rfl, fun k hk => ?_, rfl⟩
  · simpa using hlen
  · simpa using (read_storeBytes payload 0 s.inMem).2 k hk

end Sys2Proof.Machine
end

section
/-! PROOFS of the encoding family: the encoder's bytes as numbers, and that decoder and encoder are inverse to each other on
well-formed elements (R59 to R61, R63, R90). -/

namespace Sys2Proof.Machine

/-! The encoder's bytes as numbers. -/

/-- Two fields that do not overlap, packed into a byte. -/
theorem byte_pack_toNat {x y : Byte} {k : Nat} (hx : x.toNat * 2 ^ k < 256) (hy : y.toNat < 2 ^ k) :
    ((x <<< k) ||| y).toNat = x.toNat * 2 ^ k + y.toNat := by
  have hshift : (x <<< k).toNat = x.toNat <<< k := by
    rw [BitVec.toNat_shiftLeft, Nat.mod_eq_of_lt (by rw [Nat.shiftLeft_eq]; exact hx)]
  rw [BitVec.toNat_or, hshift, nat_shift_or hy]

/-- The low `k` bits of a field, in a byte. -/
theorem low_bits_toNat {w : Nat} (x m : BitVec w) (k : Nat) (hk : k ≤ 8) (hm : m.toNat = 2 ^ k - 1) :
    ((x &&& m).setWidth 8).toNat = x.toNat % 2 ^ k := by
  have hle : 2 ^ k ≤ 2 ^ 8 := Nat.pow_le_pow_right (by decide) hk
  have hlt : x.toNat % 2 ^ k < 2 ^ k := Nat.mod_lt _ (Nat.two_pow_pos k)
  rw [BitVec.toNat_setWidth, BitVec.toNat_and, hm, Nat.and_two_pow_sub_one_eq_mod, Nat.mod_eq_of_lt (by omega)]

/-- The bits of a field from `k` on, in a byte. -/
theorem high_bits_toNat {w : Nat} (x : BitVec w) (k : Nat) : ((x >>> k).setWidth 8).toNat = x.toNat / 2 ^ k % 256 := by
  rw [BitVec.toNat_setWidth, BitVec.toNat_ushiftRight, Nat.shiftRight_eq_div_pow]

/-- A length less the least one does not wrap (R60). -/
theorem length_sub_three_toNat {len : BitVec 9} (h : 3 ≤ len.toNat) : (len - 3).toNat = len.toNat - 3 := by
  have hle : (3#9) ≤ len := h
  rw [show len - 3 = len - 3#9 from rfl, BitVec.toNat_sub_of_le hle]
  rfl

theorem encode_m1_toNat {off : BitVec 21} (hoff : off.toNat ≤ 63) :
    ∃ b0, encode (.m1 off) = [b0] ∧ b0.toNat = off.toNat * 4 := by
  refine ⟨_, rfl, ?_⟩
  rw [BitVec.toNat_shiftLeft, BitVec.toNat_setWidth, Nat.shiftLeft_eq]
  omega

theorem encode_m2_toNat {len : BitVec 9} {off : BitVec 21} (hlow : 3 ≤ len.toNat) (hhigh : len.toNat ≤ 18)
    (hoff : off.toNat ≤ 1023) : ∃ b0 b1, encode (.m2 len off) = [b0, b1] ∧
      b0.toNat = off.toNat % 4 * 64 + (len.toNat - 3) * 4 + 2 ∧ b1.toNat = off.toNat / 4 := by
  have hfield : ((off &&& 3).setWidth 8).toNat = off.toNat % 2 ^ 2 := low_bits_toNat off 3 2 (by decide) rfl
  have hlen : ((len - 3).setWidth 8).toNat = len.toNat - 3 := by
    rw [BitVec.toNat_setWidth, length_sub_three_toNat hlow]; omega
  have hpacked : (((len - 3).setWidth 8 <<< 2) ||| (2 : Byte)).toNat = (len.toNat - 3) * 4 + 2 := by
    rw [byte_pack_toNat (by omega) (by decide), hlen]; rfl
  refine ⟨_, _, rfl, ?_, ?_⟩
  · rw [BitVec.or_assoc, byte_pack_toNat (by omega) (by omega), hfield, hpacked]; omega
  · rw [high_bits_toNat]; omega

theorem encode_m3_toNat {off : BitVec 21} (hoff : off.toNat ≤ 16383) :
    ∃ b0 b1, encode (.m3 off) = [b0, b1] ∧ b0.toNat = off.toNat % 64 * 4 + 1 ∧ b1.toNat = off.toNat / 64 := by
  have hfield : ((off &&& 63).setWidth 8).toNat = off.toNat % 2 ^ 6 := low_bits_toNat off 63 6 (by decide) rfl
  refine ⟨_, _, rfl, ?_, ?_⟩
  · rw [byte_pack_toNat (by omega) (by decide), hfield]; rfl
  · rw [high_bits_toNat]; omega

theorem encode_m4_toNat {len : BitVec 9} (off : BitVec 21) (x : BitVec 3) (hlow : 3 ≤ len.toNat) :
    ∃ b0 b1 b2 b3, encode (.m4 len off x) = [b0, b1, b2, b3] ∧
      b0.toNat = (len.toNat - 3) % 32 * 8 + 7 ∧ b1.toNat = off.toNat % 32 * 8 + x.toNat ∧
      b2.toNat = off.toNat / 32 % 256 ∧ b3.toNat = off.toNat / 8192 := by
  have hoff := off.isLt
  have hx := x.isLt
  have hfield : ((off &&& 31).setWidth 8).toNat = off.toNat % 2 ^ 5 := low_bits_toNat off 31 5 (by decide) rfl
  have hlen : (((len - 3) &&& 31).setWidth 8).toNat = (len.toNat - 3) % 2 ^ 5 := by
    rw [low_bits_toNat (len - 3) 31 5 (by decide) rfl, length_sub_three_toNat hlow]
  have hignored : (x.setWidth 8).toNat = x.toNat := by rw [BitVec.toNat_setWidth]; omega
  refine ⟨_, _, _, _, rfl, ?_, ?_, ?_, ?_⟩
  · rw [byte_pack_toNat (by omega) (by decide), hlen]; rfl
  · rw [byte_pack_toNat (by omega) (by omega), hfield, hignored]; omega
  · rw [high_bits_toNat]; omega
  · rw [high_bits_toNat]; omega

theorem encode_m5_toNat {len : BitVec 9} {off : BitVec 21} (hlow : 3 ≤ len.toNat) (hhigh : len.toNat ≤ 34)
    (hoff : off.toNat ≤ 65535) : ∃ b0 b1 b2, encode (.m5 len off) = [b0, b1, b2] ∧
      b0.toNat = (len.toNat - 3) * 8 + 3 ∧ b1.toNat = off.toNat % 256 ∧ b2.toNat = off.toNat / 256 := by
  have hlen : ((len - 3).setWidth 8).toNat = len.toNat - 3 := by
    rw [BitVec.toNat_setWidth, length_sub_three_toNat hlow]; omega
  refine ⟨_, _, _, rfl, ?_, ?_, ?_⟩
  · rw [byte_pack_toNat (by omega) (by decide), hlen]; rfl
  · exact BitVec.toNat_setWidth 8 off
  · rw [high_bits_toNat]; omega

theorem encode_ind_toNat (w : Word) : ∃ w0 w1 w2 w3, encode (.ind w) = [w0, w1, w2, w3] ∧
    w0.toNat = w.toNat % 256 ∧ w1.toNat = w.toNat / 2 ^ 8 % 256 ∧ w2.toNat = w.toNat / 2 ^ 16 % 256 ∧
      w3.toNat = w.toNat / 2 ^ 24 % 256 :=
  ⟨_, _, _, _, rfl, BitVec.toNat_setWidth 8 w, high_bits_toNat w 8, high_bits_toNat w 16, high_bits_toNat w 24⟩

/-! Decoding what was encoded. -/

/-- Settles O54: for each element the encoder's bytes are at its position the bytes its decoder takes, and the fields the
formulas read from them are the operands. -/
theorem decodeOfEncode : Obligations.DecodeOfEncode := by
  unfold Obligations.DecodeOfEncode
  intro i rest hwf hlookahead
  cases i with
  | ind w =>
    obtain ⟨w0, w1, w2, w3, hencode, h0, h1, h2, h3⟩ := encode_ind_toNat w
    have hword : indWord w0 w1 w2 w3 = w := BitVec.eq_of_toNat_eq (by rw [indWord_toNat]; omega)
    rw [hencode, ← hword]
    rfl
  | lit v => rfl
  | m1 off =>
    simp only [Instr.wellFormed, decide_eq_true_eq] at hwf
    obtain ⟨b0, hencode, h0⟩ := encode_m1_toNat hwf
    rw [hencode] at hlookahead ⊢
    cases rest with
    | nil => exact absurd (hlookahead rfl) (by simp)
    | cons b1 more =>
      have hoff : m1Off b0 = off := BitVec.eq_of_toNat_eq (by rw [m1Off_toNat]; omega)
      rw [← hoff]
      exact decode_m1_of_leadByte b1 more (by omega)
  | m2 len off =>
    simp only [Instr.wellFormed, Bool.and_eq_true, decide_eq_true_eq] at hwf
    obtain ⟨⟨hlow, hhigh⟩, hoff⟩ := hwf
    obtain ⟨b0, b1, hencode, h0, h1⟩ := encode_m2_toNat hlow hhigh hoff
    have hlen : m2Len b0 = len := BitVec.eq_of_toNat_eq (by rw [m2Len_toNat]; omega)
    have hoff' : m2Off b0 b1 = off := BitVec.eq_of_toNat_eq (by rw [m2Off_toNat]; omega)
    rw [hencode, ← hlen, ← hoff']
    exact decode_m2_of_leadByte b1 rest (by omega)
  | m3 off =>
    simp only [Instr.wellFormed, decide_eq_true_eq] at hwf
    obtain ⟨b0, b1, hencode, h0, h1⟩ := encode_m3_toNat hwf
    have hoff : m3Off b0 b1 = off := BitVec.eq_of_toNat_eq (by rw [m3Off_toNat]; omega)
    rw [hencode, ← hoff]
    exact decode_m3_of_leadByte b1 rest (by omega)
  | m4 len off x =>
    simp only [Instr.wellFormed, Bool.and_eq_true, decide_eq_true_eq, beq_iff_eq] at hwf
    obtain ⟨⟨hlow, hhigh⟩, htie⟩ := hwf
    have hx := x.isLt
    obtain ⟨b0, b1, b2, b3, hencode, h0, h1, h2, h3⟩ := encode_m4_toNat off x hlow
    have hlen : m4Len b0 b3 = len := BitVec.eq_of_toNat_eq (by rw [m4Len_toNat]; omega)
    have hoff : m4Off b1 b2 b3 = off := BitVec.eq_of_toNat_eq (by rw [m4Off_toNat]; omega)
    have hignored : b1.setWidth 3 = x := BitVec.eq_of_toNat_eq (by rw [BitVec.toNat_setWidth]; omega)
    rw [hencode, ← hlen, ← hoff, ← hignored]
    exact decode_m4_of_leadByte b1 b2 b3 rest (by omega)
  | m5 len off =>
    simp only [Instr.wellFormed, Bool.and_eq_true, decide_eq_true_eq] at hwf
    obtain ⟨⟨hlow, hhigh⟩, hoff⟩ := hwf
    obtain ⟨b0, b1, b2, hencode, h0, h1, h2⟩ := encode_m5_toNat hlow hhigh hoff
    have hlen : m5Len b0 = len := BitVec.eq_of_toNat_eq (by rw [m5Len_toNat]; omega)
    have hoff' : m5Off b1 b2 = off := BitVec.eq_of_toNat_eq (by rw [m5Off_toNat]; omega)
    rw [hencode, ← hlen, ← hoff']
    exact decode_m5_of_leadByte b1 b2 rest (by omega)

/-! Encoding what was decoded. -/

theorem encode_m1Off {b0 : Byte} (h : b0.toNat % 4 = 0) :
    Instr.wellFormed (.m1 (m1Off b0)) = true ∧ encode (.m1 (m1Off b0)) = [b0] := by
  have hoff := m1Off_toNat b0
  obtain ⟨c0, hencode, h0⟩ := encode_m1_toNat (m1Off_le b0)
  obtain rfl : c0 = b0 := BitVec.eq_of_toNat_eq (by omega)
  exact ⟨by simpa [Instr.wellFormed] using m1Off_le c0, hencode⟩

theorem encode_m2Len_m2Off {b0 : Byte} (b1 : Byte) (h : b0.toNat % 4 = 2) :
    Instr.wellFormed (.m2 (m2Len b0) (m2Off b0 b1)) = true ∧ encode (.m2 (m2Len b0) (m2Off b0 b1)) = [b0, b1] := by
  have h0lt := b0.isLt
  have hlen := m2Len_toNat b0
  have hoff := m2Off_toNat b0 b1
  have hlow : 3 ≤ (m2Len b0).toNat := by omega
  obtain ⟨c0, c1, hencode, h0, h1⟩ := encode_m2_toNat hlow (m2Len_le b0) (m2Off_le b0 b1)
  obtain rfl : c0 = b0 := BitVec.eq_of_toNat_eq (by omega)
  obtain rfl : c1 = b1 := BitVec.eq_of_toNat_eq (by omega)
  exact ⟨by simp [Instr.wellFormed, hlow, m2Len_le, m2Off_le], hencode⟩

theorem encode_m3Off {b0 : Byte} (b1 : Byte) (h : b0.toNat % 4 = 1) :
    Instr.wellFormed (.m3 (m3Off b0 b1)) = true ∧ encode (.m3 (m3Off b0 b1)) = [b0, b1] := by
  have h0lt := b0.isLt
  have hoff := m3Off_toNat b0 b1
  obtain ⟨c0, c1, hencode, h0, h1⟩ := encode_m3_toNat (m3Off_le b0 b1)
  obtain rfl : c0 = b0 := BitVec.eq_of_toNat_eq (by omega)
  obtain rfl : c1 = b1 := BitVec.eq_of_toNat_eq (by omega)
  exact ⟨by simpa [Instr.wellFormed] using m3Off_le c0 c1, hencode⟩

theorem encode_m4Len_m4Off {b0 : Byte} (b1 b2 b3 : Byte) (h : b0.toNat % 8 = 7) :
    Instr.wellFormed (.m4 (m4Len b0 b3) (m4Off b1 b2 b3) (b1.setWidth 3)) = true ∧
      encode (.m4 (m4Len b0 b3) (m4Off b1 b2 b3) (b1.setWidth 3)) = [b0, b1, b2, b3] := by
  have h0lt := b0.isLt
  have h1lt := b1.isLt
  have h2lt := b2.isLt
  have hlen := m4Len_toNat b0 b3
  have hoff := m4Off_toNat b1 b2 b3
  have hignored : (b1.setWidth 3).toNat = b1.toNat % 8 := BitVec.toNat_setWidth 3 b1
  have hlow : 3 ≤ (m4Len b0 b3).toNat := by omega
  have htie : ((m4Len b0 b3).toNat - 3) / 32 = (m4Off b1 b2 b3).toNat / 8192 % 8 := by omega
  obtain ⟨c0, c1, c2, c3, hencode, h0, h1, h2, h3⟩ := encode_m4_toNat (m4Off b1 b2 b3) (b1.setWidth 3) hlow
  obtain rfl : c0 = b0 := BitVec.eq_of_toNat_eq (by omega)
  obtain rfl : c1 = b1 := BitVec.eq_of_toNat_eq (by omega)
  obtain rfl : c2 = b2 := BitVec.eq_of_toNat_eq (by omega)
  obtain rfl : c3 = b3 := BitVec.eq_of_toNat_eq (by omega)
  exact ⟨by simp [Instr.wellFormed, hlow, m4Len_le, htie], hencode⟩

theorem encode_m5Len_m5Off {b0 : Byte} (b1 b2 : Byte) (h : b0.toNat % 8 = 3) :
    Instr.wellFormed (.m5 (m5Len b0) (m5Off b1 b2)) = true ∧ encode (.m5 (m5Len b0) (m5Off b1 b2)) = [b0, b1, b2] := by
  have h1lt := b1.isLt
  have hlen := m5Len_toNat b0
  have hoff := m5Off_toNat b1 b2
  have hlow : 3 ≤ (m5Len b0).toNat := by omega
  obtain ⟨c0, c1, c2, hencode, h0, h1, h2⟩ := encode_m5_toNat hlow (m5Len_le b0) (m5Off_le b1 b2)
  obtain rfl : c0 = b0 := BitVec.eq_of_toNat_eq (by omega)
  obtain rfl : c1 = b1 := BitVec.eq_of_toNat_eq (by omega)
  obtain rfl : c2 = b2 := BitVec.eq_of_toNat_eq (by omega)
  exact ⟨by simp [Instr.wellFormed, hlow, m5Len_le, m5Off_le], hencode⟩

theorem encode_indWord (w0 w1 w2 w3 : Byte) : encode (.ind (indWord w0 w1 w2 w3)) = [w0, w1, w2, w3] := by
  have h0lt := w0.isLt
  have h1lt := w1.isLt
  have h2lt := w2.isLt
  have h3lt := w3.isLt
  have hword := indWord_toNat w0 w1 w2 w3
  obtain ⟨c0, c1, c2, c3, hencode, h0, h1, h2, h3⟩ := encode_ind_toNat (indWord w0 w1 w2 w3)
  obtain rfl : c0 = w0 := BitVec.eq_of_toNat_eq (by omega)
  obtain rfl : c1 = w1 := BitVec.eq_of_toNat_eq (by omega)
  obtain rfl : c2 = w2 := BitVec.eq_of_toNat_eq (by omega)
  obtain rfl : c3 = w3 := BitVec.eq_of_toNat_eq (by omega)
  exact hencode

/-- What an element decoded from `bytes` at a position is. -/
def DecodedFrom (slot : Slot) (bytes : List Byte) (i : Instr) : Prop :=
  i.slot = slot ∧ i.wellFormed = true ∧ encode i = bytes.take i.size ∧ i.size ≤ bytes.length

/-- The match tokens, shape by shape. -/
theorem decodedFrom_matchToken {b0 b1 : Byte} {rest : List Byte} {i : Instr}
    (h : decode .matchToken (b0 :: b1 :: rest) = .element i) : DecodedFrom .matchToken (b0 :: b1 :: rest) i := by
  rw [decode_matchToken_cons_cons] at h
  rcases decodeMatch_cases b0 b1 rest with
    ⟨hdec, hlead⟩ | ⟨hdec, hlead⟩ | ⟨hdec, hlead⟩ | ⟨b2, b3, more, rfl, hlead, hdec⟩ | ⟨-, -, hdec⟩ |
      ⟨b2, more, rfl, hlead, hdec⟩ | ⟨-, -, hdec⟩
  · obtain rfl := Decoded.element.inj (hdec.symm.trans h)
    obtain ⟨hwf, hencode⟩ := encode_m1Off hlead
    exact ⟨rfl, hwf, hencode, by simp [Instr.size]⟩
  · obtain rfl := Decoded.element.inj (hdec.symm.trans h)
    obtain ⟨hwf, hencode⟩ := encode_m2Len_m2Off b1 hlead
    exact ⟨rfl, hwf, hencode, by simp [Instr.size]⟩
  · obtain rfl := Decoded.element.inj (hdec.symm.trans h)
    obtain ⟨hwf, hencode⟩ := encode_m3Off b1 hlead
    exact ⟨rfl, hwf, hencode, by simp [Instr.size]⟩
  · obtain rfl := Decoded.element.inj (hdec.symm.trans h)
    obtain ⟨hwf, hencode⟩ := encode_m4Len_m4Off b1 b2 b3 hlead
    exact ⟨rfl, hwf, hencode, by simp [Instr.size]⟩
  · cases hdec.symm.trans h
  · obtain rfl := Decoded.element.inj (hdec.symm.trans h)
    obtain ⟨hwf, hencode⟩ := encode_m5Len_m5Off b1 b2 hlead
    exact ⟨rfl, hwf, hencode, by simp [Instr.size]⟩
  · cases hdec.symm.trans h

/-- Settles O55: by the position and the bytes there; where they are too few the decoder gives no element. -/
theorem encodeOfDecode : Obligations.EncodeOfDecode := by
  unfold Obligations.EncodeOfDecode
  intro slot bytes i h
  match slot, bytes, h with
  | .indicator, w0 :: w1 :: w2 :: w3 :: rest, h =>
    obtain rfl : .ind (indWord w0 w1 w2 w3) = i := Decoded.element.inj h
    exact ⟨rfl, rfl, encode_indWord w0 w1 w2 w3, by simp [Instr.size]⟩
  | .indicator, [], h => cases h
  | .indicator, [_], h => cases h
  | .indicator, [_, _], h => cases h
  | .indicator, [_, _, _], h => cases h
  | .literal, v :: rest, h =>
    obtain rfl : .lit v = i := Decoded.element.inj h
    exact ⟨rfl, rfl, rfl, by simp [Instr.size]⟩
  | .literal, [], h => cases h
  | .matchToken, b0 :: b1 :: rest, h => exact decodedFrom_matchToken h
  | .matchToken, [], h => cases h
  | .matchToken, [_], h => cases h

/-- Settles O56: four bytes are enough at every position, for a match token because no shape is longer. -/
theorem fourBytesAlwaysDecode : Obligations.FourBytesAlwaysDecode := by
  unfold Obligations.FourBytesAlwaysDecode
  intro slot b0 b1 b2 b3 rest
  cases slot with
  | indicator => exact ⟨_, rfl⟩
  | literal => exact ⟨_, rfl⟩
  | matchToken =>
    rcases decode_matchToken_size b0 b1 (b2 :: b3 :: rest) with ⟨i, hdec, -⟩ | ⟨-, hlong⟩
    · exact ⟨i, hdec⟩
    · have hsize := (refSize_range b0.toNat).2
      simp only [List.length_cons] at hlong
      omega

/-- Settles O58: each of the eight words by evaluation of the decoder. -/
theorem sampleWordsDecode : Obligations.SampleWordsDecode := by
  unfold Obligations.SampleWordsDecode
  decide

end Sys2Proof.Machine
end

section
/-! PROOFS of the copy loop family: the closed form of a whole copy, by induction on the bytes copied (R110). -/

namespace Sys2Proof.Machine

open Sys2Proof.Safety

theorem count_eq_zero_iff (c : BitVec 9) : c = 0 ↔ c.toNat = 0 := BitVec.toNat_inj.symm

/-- With a count to go, a source inside the output and room, the copy step copies (R105, R107). -/
theorem step_copies {s : State} (hh : s.host = []) (hp : s.phase = .copy) (count : s.cnt ≠ 0)
    (source : s.mOff.toNat < s.outIdx.toNat) (room : s.outIdx < s.outCap) :
    step s = .next (countDown (emit (outByte s (s.outIdx.toNat - (s.mOff.toNat + 1))) s)) := by
  rw [step_of_copy hh hp]
  rcases copyStep_cases s with ⟨hzero, -⟩ | ⟨-, hbefore, -⟩ | ⟨-, -, hfull, -⟩ | ⟨-, -, -, hstep⟩
  · exact absurd hzero count
  · omega
  · exact absurd room (BitVec.not_lt.2 hfull)
  · rw [hstep]

/-- With a count to go, a source inside the output and no room, the copy step halts OUT_FULL_COPY (R105, R107). -/
theorem step_cuts {s : State} (hh : s.host = []) (hp : s.phase = .copy) (count : s.cnt ≠ 0)
    (source : s.mOff.toNat < s.outIdx.toNat) (full : s.outCap ≤ s.outIdx) :
    step s = .next (raiseHalt .outFullCopy s) := by
  rw [step_of_copy hh hp]
  rcases copyStep_cases s with ⟨hzero, -⟩ | ⟨-, hbefore, -⟩ | ⟨-, -, -, hstep⟩ | ⟨-, -, hroom, -⟩
  · exact absurd hzero count
  · omega
  · rw [hstep]
  · exact absurd hroom (BitVec.not_lt.2 full)

/-- With a count to go and a source before the output, the copy step halts SRC_UNDERFLOW (R105, R107). -/
theorem step_underflows {s : State} (hh : s.host = []) (hp : s.phase = .copy) (count : s.cnt ≠ 0)
    (before : s.outIdx.toNat ≤ s.mOff.toNat) : step s = .next (raiseHalt .srcUnderflow s) := by
  rw [step_of_copy hh hp]
  rcases copyStep_cases s with ⟨hzero, -⟩ | ⟨-, -, hstep⟩ | ⟨-, hsource, -⟩ | ⟨-, hsource, -⟩
  · exact absurd hzero count
  · rw [hstep]
  · omega
  · omega

/-- `t` is `s` after `k` bytes of its copy: the cursor, the count, the phase, and what `OUT` reads (R110). -/
structure CopiedBytes (s : State) (k : Nat) (t : State) : Prop where
  alone : t.host = []
  offset : t.mOff = s.mOff
  cap : t.outCap = s.outCap
  cursor : t.outIdx.toNat = s.outIdx.toNat + k
  count : t.cnt.toNat + k = s.cnt.toNat
  going : k < s.cnt.toNat → t.phase = .copy
  finished : k = s.cnt.toNat → t.phase = .run
  copied : ∀ i, i < k →
    outByte t (s.outIdx.toNat + i) = outByte s (s.outIdx.toNat - (s.mOff.toNat + 1) + i % (s.mOff.toNat + 1))
  others : ∀ a, a < s.outIdx.toNat ∨ s.outIdx.toNat + k ≤ a → outByte t a = outByte s a

theorem copiedBytes_zero {s : State} (hh : s.host = []) (hp : s.phase = .copy) (hcnt : s.cnt ≠ 0) :
    CopiedBytes s 0 s :=
  ⟨hh, rfl, rfl, rfl, rfl, fun _ => hp, fun h => absurd h.symm (count_pred hcnt).2,
    fun i hi => absurd hi (Nat.not_lt_zero i), fun _ _ => rfl⟩

/-- The byte the next copy step reads is the closed form's: still that of the output before the copy, or one this copy wrote
`m_off + 1` bytes ago (R109, R110). -/
theorem copiedBytes_source {s t : State} {k : Nat} (h : CopiedBytes s k t) (source : s.mOff.toNat < s.outIdx.toNat) :
    outByte t (t.outIdx.toNat - (t.mOff.toNat + 1)) =
      outByte s (s.outIdx.toNat - (s.mOff.toNat + 1) + k % (s.mOff.toNat + 1)) := by
  rw [h.cursor, h.offset]
  by_cases hfirst : k < s.mOff.toNat + 1
  · rw [h.others _ (.inl (by omega)), Nat.mod_eq_of_lt hfirst,
      show s.outIdx.toNat + k - (s.mOff.toNat + 1) = s.outIdx.toNat - (s.mOff.toNat + 1) + k by omega]
  · rw [show s.outIdx.toNat + k - (s.mOff.toNat + 1) = s.outIdx.toNat + (k - (s.mOff.toNat + 1)) by omega,
      h.copied _ (by omega), ← Nat.mod_eq_sub_mod (by omega)]

/-- One more byte copied. -/
theorem copiedBytes_succ {s t : State} {k : Nat} (h : CopiedBytes s k t) (source : s.mOff.toNat < s.outIdx.toNat)
    (hcnt : k < s.cnt.toNat) (hroom : s.outIdx.toNat + k < s.outCap.toNat) :
    ∃ u, step t = .next u ∧ CopiedBytes s (k + 1) u := by
  have hpt : t.phase = .copy := h.going hcnt
  have hcount := h.count
  have hcursor := h.cursor
  have hroomt : t.outIdx < t.outCap := by rw [BitVec.lt_def, h.cap]; omega
  have hcntt : t.cnt ≠ 0 := mt (count_eq_zero_iff _).1 (by omega)
  have hsourcet : t.mOff.toNat < t.outIdx.toNat := by rw [h.offset]; omega
  obtain ⟨hnext, -⟩ := word_succ_of_lt hroomt
  obtain ⟨hpred, -⟩ := count_pred hcntt
  have hlast : t.cnt - 1 = 0 ↔ k + 1 = s.cnt.toNat := by
    rw [count_eq_zero_iff, hpred]; omega
  refine ⟨_, step_copies h.alone hpt hcntt hsourcet hroomt, ?_⟩
  refine ⟨h.alone, h.offset, h.cap, ?cursor, ?count, fun hlt => ?going, fun heq => if_pos (hlast.2 heq), fun i hi => ?copied,
    fun a ha => ?others⟩
  case cursor => rw [countDown_outIdx, emit_outIdx, hnext]; omega
  case count => rw [countDown_cnt, emit_cnt, hpred]; omega
  case going => exact (if_neg (mt hlast.1 (by omega))).trans hpt
  case copied =>
    rw [outByte_copied, copiedBytes_source h source, hcursor]
    by_cases hi' : i = k
    · rw [if_pos (by omega), hi']
    · rw [if_neg (by omega), h.copied i (by omega)]
  case others => rw [outByte_copied, hcursor, if_neg (by omega), h.others a (by omega)]

/-- As many bytes as the count and the room allow are copied, one step each (R110). -/
theorem runSteps_copiedBytes {s : State} (hh : s.host = []) (hp : s.phase = .copy) (hcnt : s.cnt ≠ 0)
    (source : s.mOff.toNat < s.outIdx.toNat) (k : Nat)
    (hk : k ≤ min s.cnt.toNat (s.outCap.toNat - s.outIdx.toNat)) :
    ∃ t, runSteps k s = .next t ∧ CopiedBytes s k t := by
  induction k with
  | zero => exact ⟨s, rfl, copiedBytes_zero hh hp hcnt⟩
  | succ k ih =>
    obtain ⟨t, hrun, hcopied⟩ := ih (by omega)
    obtain ⟨u, hstep, hnext⟩ := copiedBytes_succ hcopied source (by omega) (by omega)
    exact ⟨u, by rw [runSteps_add hrun, runSteps_succ hstep, runSteps_zero], hnext⟩

/-- Settles O33: by induction on the bytes copied up to the lesser of the count and the room; what stops it there is the
count or the room. -/
theorem copyClosedForm : Obligations.CopyClosedForm := by
  unfold Obligations.CopyClosedForm
  intro s hh hp hcnt
  refine ⟨fun hbefore => step_underflows hh hp hcnt (by omega), fun hsource => ?_⟩
  obtain ⟨t, hrun, hcopied⟩ := runSteps_copiedBytes hh hp hcnt hsource _ le_rfl
  refine ⟨t, hrun, hcopied.cursor, hcopied.copied, hcopied.others, fun hfits => hcopied.finished (by omega), fun hcut => ?_⟩
  have hcount := hcopied.count
  have hcursor := hcopied.cursor
  refine step_cuts hcopied.alone (hcopied.going (by omega)) (mt (count_eq_zero_iff _).1 (by omega)) ?_ ?_
  · rw [hcopied.offset]; omega
  · rw [BitVec.le_def, hcopied.cap]; omega

end Sys2Proof.Machine
end

section
/-! PROOFS of the whole decode's end: every step of a decode under way lowers a bound on the steps that are left (R157). -/

namespace Sys2Proof.Machine

open Sys2Proof.Safety

/-- The most steps a decode can still take: in RUN a token step for each input byte and each output byte that is left,
whichever are fewer, a copy step for each output byte, and the halt; in COPY the byte about to be copied needs no further
token. -/
def stepsLeft (s : State) : Nat :=
  match s.phase with
  | .run => min (s.inLen.toNat - s.inIdx.toNat) (s.outCap.toNat - s.outIdx.toNat) + (s.outCap.toNat - s.outIdx.toNat) + 1
  | .copy =>
    min (s.inLen.toNat - s.inIdx.toNat) (s.outCap.toNat - s.outIdx.toNat - 1) + (s.outCap.toNat - s.outIdx.toNat) + 1
  | .idle => 0
  | .halted => 0

theorem stepsLeft_run {s : State} (hp : s.phase = .run) : stepsLeft s =
    min (s.inLen.toNat - s.inIdx.toNat) (s.outCap.toNat - s.outIdx.toNat) + (s.outCap.toNat - s.outIdx.toNat) + 1 := by
  rw [stepsLeft, hp]

theorem stepsLeft_copy {s : State} (hp : s.phase = .copy) : stepsLeft s =
    min (s.inLen.toNat - s.inIdx.toNat) (s.outCap.toNat - s.outIdx.toNat - 1) +
      (s.outCap.toNat - s.outIdx.toNat) + 1 := by
  rw [stepsLeft, hp]

/-- Only a token step that passed its guard does not halt. -/
theorem guardPassed_of_not_halted {s t : State} (move : TokenMove s t) (ht : t.phase ≠ .halted) : GuardPassed s := by
  cases move with
  | literal passed => exact passed
  | matchToken passed => exact passed
  | _ => exact absurd rfl ht

theorem underWay_decodeBounds {s : State} (h : UnderWay s) : DecodeBounds s := by
  rcases h with ⟨-, hb⟩ | ⟨-, hb, -⟩ <;> exact hb

/-- A step that does not halt lowers the bound. -/
theorem stepsLeft_lt {s t : State} (hh : s.host = []) (hway : UnderWay s) (hs : step s = .next t) (hwayt : UnderWay t)
    (ht : t.phase ≠ .halted) : stepsLeft t < stepsLeft s := by
  obtain ⟨hlen, hcap, -⟩ := engineLeavesItsInputAlone s t hh hs
  obtain ⟨hrunStep, hcopyStep⟩ := everyStepMakesProgress s t hh hs ht
  have hin : t.inIdx.toNat ≤ t.inLen.toNat := (underWay_decodeBounds hwayt).in_bound
  have hout : t.outIdx.toNat ≤ t.outCap.toNat := (underWay_decodeBounds hwayt).out_bound
  rw [hlen] at hin
  rw [hcap] at hout
  rcases hway with ⟨hp, -⟩ | ⟨hp, -, hcopy⟩
  · obtain ⟨hforward, -, hprogress⟩ := hrunStep hp
    have hroom : s.outIdx.toNat < s.outCap.toNat :=
      (guardPassed_of_not_halted (tokenMove_of_step hh hp hs) ht).room
    rw [stepsLeft_run hp]
    rcases hprogress with ⟨hpt, hcursor⟩ | ⟨hpt, hcursor⟩
    · rw [stepsLeft_run hpt, hlen, hcap]; omega
    · rw [stepsLeft_copy hpt, hlen, hcap, hcursor]; omega
  · have hlow := hcopy.cnt_low
    have hcnt : s.cnt ≠ 0 := mt (count_eq_zero_iff _).1 (by omega)
    obtain ⟨hcursor, hsame, -⟩ := hcopyStep hp hcnt
    rw [stepsLeft_copy hp]
    rcases hwayt with ⟨hpt, -⟩ | ⟨hpt, -⟩
    · rw [stepsLeft_run hpt, hlen, hcap, hsame]; omega
    · rw [stepsLeft_copy hpt, hlen, hcap, hsame]; omega

/-- A decode under way that is left alone halts within its bound (R157). -/
theorem runSteps_halts (n : Nat) {s : State} (hh : s.host = []) (hway : UnderWay s) (hn : stepsLeft s ≤ n) :
    ∃ t, runSteps n s = .next t ∧ t.phase = .halted ∧ t.host = [] := by
  induction n generalizing s with
  | zero =>
    rcases hway with ⟨hp, -⟩ | ⟨hp, -⟩
    · rw [stepsLeft_run hp] at hn; omega
    · rw [stepsLeft_copy hp] at hn; omega
  | succ n ih =>
    obtain ⟨t, hengine, hmove⟩ := engineStep_move s
    have hs : step s = .next t := (step_alone hh).trans hengine
    have hht : t.host = [] := by
      obtain ⟨-, -, -, hhost, -⟩ := engineLeavesItsInputAlone s t hh hs
      exact hhost.trans hh
    rw [runSteps_succ hs]
    rcases engineMove_underWay hway hmove with hwayt | ⟨hhalted, -⟩
    · have hnothalted : t.phase ≠ .halted := by rcases hwayt with ⟨hp, -⟩ | ⟨hp, -⟩ <;> simp [hp]
      have hlt := stepsLeft_lt hh hway hs hwayt hnothalted
      exact ih hht hwayt (by omega)
    · exact ⟨t, runSteps_halted hhalted hht, hhalted, hht⟩

/-- START leaves the bounds of a decode under way (R27). -/
theorem launched_underWay {payload : List Byte} {cap : Word} {s : State} (h : Launched payload cap s) : UnderWay s := by
  refine .inl ⟨h.phase_run, ?_, ?_, ?_, ?_, h.no_cause⟩
  · rw [h.in_zero]; exact Nat.zero_le _
  · rw [h.out_zero]; exact Nat.zero_le _
  · rw [h.out_zero]; simp
  · rw [h.bit_init]; decide

theorem launched_stepsLeft {payload : List Byte} {cap : Word} {s : State} (h : Launched payload cap s) :
    stepsLeft s ≤ stepBound payload.length cap.toNat := by
  rw [stepsLeft_run h.phase_run, h.in_zero, h.out_zero, h.len_is, h.cap_is, stepBound]
  simp
  omega

/-- Settles O48: the bound on the steps left is at launch within R157's. -/
theorem everyDecodeTerminates : Obligations.EveryDecodeTerminates := by
  unfold Obligations.EveryDecodeTerminates
  intro payload cap s h
  obtain ⟨t, hrun, hp, hh⟩ := runSteps_halts _ h.alone (launched_underWay h) (launched_stepsLeft h)
  exact ⟨t, hrun, hp, step_halted hp hh⟩

end Sys2Proof.Machine
end

section
/-! PROOFS of the refinement: the reference algorithm resumed where the engine stands gives after every step what it gave
before, so the state in HALTED is its result (R29, R70). -/

namespace Sys2Proof.Machine

open Sys2Proof.Safety

/-! The reference, one equation for each way its loop goes. -/

/-- R70's loop after the token part has come to `token`. -/
def refResume (payload : List Byte) (cap fuel bitPos ind : Nat) (token : RefToken) : RefResult :=
  match token with
  | .stop r => r
  | .more out inIdx => refLoop payload cap fuel out inIdx bitPos ind

/-- What a match token comes to when its copy has come to `copied` (R70). -/
def refCopied (copied : List Byte × Cause) (inIdx bitPos : Nat) : RefToken :=
  if copied.2 = .none then .more copied.1 inIdx else .stop ⟨copied.1, copied.2, inIdx, bitPos⟩

/-- The indicator word of R31 at an index of the payload. -/
def refWord (payload : List Byte) (inIdx : Nat) : Nat :=
  refByte payload inIdx ||| (refByte payload (inIdx + 1) <<< 8) ||| (refByte payload (inIdx + 2) <<< 16) |||
    (refByte payload (inIdx + 3) <<< 24)

/-- Length and offset of the match token at an index of the payload. -/
def refFieldsAt (payload : List Byte) (inIdx : Nat) : Nat × Nat :=
  refFields (refByte payload inIdx) (refByte payload (inIdx + 1)) (refByte payload (inIdx + 2))
    (refByte payload (inIdx + 3))

/-- The index at which the token part begins, after the refill where one is due (R73, R74). -/
def refNextIdx (inIdx bitPos : Nat) : Nat := if bitPos = 30 then inIdx + 4 else inIdx

/-- The position the token part tests. -/
def refNextBit (bitPos : Nat) : Nat := if bitPos = 30 then 0 else bitPos + 1

/-- The word the token part tests. -/
def refNextInd (payload : List Byte) (inIdx bitPos ind : Nat) : Nat :=
  if bitPos = 30 then refWord payload inIdx else ind

section

variable {payload : List Byte} {cap fuel inIdx bitPos ind : Nat} {out : List Byte}

theorem refLoop_full (full : cap ≤ out.length) :
    refLoop payload cap (fuel + 1) out inIdx bitPos ind = ⟨out, .outFull, inIdx, bitPos⟩ := by
  rw [refLoop, if_pos (by omega)]

theorem refLoop_empty (room : out.length < cap) (used : payload.length ≤ inIdx) :
    refLoop payload cap (fuel + 1) out inIdx bitPos ind = ⟨out, .inEmpty, inIdx, bitPos⟩ := by
  rw [refLoop, if_neg (by omega), if_pos (by omega)]

theorem refLoop_short (room : out.length < cap) (more : inIdx < payload.length) (due : bitPos = 30)
    (few : payload.length - inIdx < 4) :
    refLoop payload cap (fuel + 1) out inIdx bitPos ind = ⟨out, .refillShort, inIdx, 31⟩ := by
  rw [refLoop, if_neg (by omega), if_neg (by omega), if_pos (by omega), if_pos few]

/-- The guard passed and no refill short, the loop comes to its token part. -/
theorem refLoop_passed (room : out.length < cap) (more : inIdx < payload.length)
    (refill : bitPos = 30 → 4 ≤ payload.length - inIdx) :
    refLoop payload cap (fuel + 1) out inIdx bitPos ind =
      refResume payload cap fuel (refNextBit bitPos) (refNextInd payload inIdx bitPos ind)
        (refToken payload cap out (refNextIdx inIdx bitPos) (refNextBit bitPos)
          (refNextInd payload inIdx bitPos ind)) := by
  rw [refLoop, if_neg (by omega), if_neg (by omega)]
  by_cases due : bitPos = 30
  · rw [if_pos (by omega), if_neg (not_lt.2 (refill due)), refNextBit, refNextInd, refNextIdx, if_pos due, if_pos due,
      if_pos due]
    rfl
  · rw [if_neg (by omega), refNextBit, refNextInd, refNextIdx, if_neg due, if_neg due, if_neg due]
    rfl

theorem refToken_litShort (clear : (ind >>> bitPos) &&& 1 = 0) (used : payload.length - inIdx = 0) :
    refToken payload cap out inIdx bitPos ind = .stop ⟨out, .litShort, inIdx, bitPos⟩ := by
  rw [refToken, if_pos clear, if_pos (by omega)]

theorem refToken_literal (clear : (ind >>> bitPos) &&& 1 = 0) (one : 1 ≤ payload.length - inIdx) :
    refToken payload cap out inIdx bitPos ind = .more (out ++ [payload.getD inIdx 0]) (inIdx + 1) := by
  rw [refToken, if_pos clear, if_neg (by omega)]

theorem refToken_tokenShort (set : (ind >>> bitPos) &&& 1 ≠ 0)
    (few : payload.length - inIdx < 2 ∨ payload.length - inIdx < refSize (refByte payload inIdx)) :
    refToken payload cap out inIdx bitPos ind = .stop ⟨out, .tokenShort, inIdx, bitPos⟩ := by
  rw [refToken, if_neg set]
  by_cases h2 : payload.length - inIdx < 2
  · rw [if_pos h2]
  · rw [if_neg h2]
    exact if_pos (few.resolve_left h2)

theorem refToken_match (set : (ind >>> bitPos) &&& 1 ≠ 0) (two : 2 ≤ payload.length - inIdx)
    (fits : refSize (refByte payload inIdx) ≤ payload.length - inIdx) :
    refToken payload cap out inIdx bitPos ind =
      refCopied (refCopy cap (refFieldsAt payload inIdx).2 (refFieldsAt payload inIdx).1 out)
        (inIdx + refSize (refByte payload inIdx)) bitPos := by
  rw [refToken, if_neg set, if_neg (by omega)]
  exact if_neg (by omega)

end

/-- The fields of a match token depend on no byte beyond its size (R60). -/
theorem refFields_congr {b0 b1 b2 b3 c1 c2 c3 : Nat} (h1 : 2 ≤ refSize b0 → b1 = c1) (h2 : 3 ≤ refSize b0 → b2 = c2)
    (h3 : 4 ≤ refSize b0 → b3 = c3) : refFields b0 b1 b2 b3 = refFields b0 c1 c2 c3 := by
  simp only [refSize] at h1 h2 h3
  simp only [refFields]
  split_ifs at h1 h2 h3 ⊢
  · rfl
  · rw [h1 (by decide)]
  · rw [h1 (by decide)]
  · rw [h1 (by decide), h2 (by decide), h3 (by decide)]
  · rw [h1 (by decide), h2 (by decide)]

/-! The engine's state as the reference sees it. -/

/-- What the engine reads and does not change: the payload in `IN`, and no event of the host. -/
structure Serves (payload : List Byte) (s : State) : Prop where
  len_is : s.inLen.toNat = payload.length
  loaded : ∀ k, k < payload.length → Memory.read s.inMem k = payload[k]?
  alone : s.host = []

theorem serves_sameSurroundings {payload : List Byte} {s t : State} (h : Serves payload s)
    (same : sameSurroundings s t) : Serves payload t := by
  obtain ⟨hlen, -, hmem, hhost, -⟩ := same
  exact ⟨by rw [hlen]; exact h.len_is, fun k hk => by rw [hmem]; exact h.loaded k hk, hhost.trans h.alone⟩

theorem serves_remaining {payload : List Byte} {s : State} (h : Serves payload s) :
    remaining s = payload.length - s.inIdx.toNat := by
  rw [remaining, h.len_is]

/-- A byte below `in_len` is the payload's. -/
theorem serves_inByte {payload : List Byte} {s : State} (h : Serves payload s) {k : Nat} (hk : k < payload.length) :
    inByte s k = payload.getD k 0 := by
  have hread : Memory.read s.inMem k = some payload[k] := (h.loaded k hk).trans (List.getElem?_eq_getElem hk)
  rw [inByte, hread, List.getD_eq_getElem _ _ hk]

theorem serves_nextByte {payload : List Byte} {s : State} (h : Serves payload s) {k : Nat} (hk : k < remaining s) :
    nextByte s k = refByte payload (s.inIdx.toNat + k) := by
  rw [serves_remaining h] at hk
  rw [nextByte, refByte, serves_inByte h (by omega)]

/-- The result and the ghost values a state shows (R29, U10). -/
def outcome (s : State) : RefResult := ⟨produced s, s.cause, s.inIdx.toNat, s.bitPos.toNat⟩

/-- What the reference gives when it is resumed where the engine stands: at its loop's head in RUN, in its copy loop in
COPY; at rest it is over. -/
def refFrom (payload : List Byte) (fuel : Nat) (s : State) : RefResult :=
  match s.phase with
  | .run => refLoop payload s.outCap.toNat fuel (produced s) s.inIdx.toNat s.bitPos.toNat s.ind.toNat
  | .copy => refResume payload s.outCap.toNat fuel s.bitPos.toNat s.ind.toNat
      (refCopied (refCopy s.outCap.toNat s.mOff.toNat s.cnt.toNat (produced s)) s.inIdx.toNat s.bitPos.toNat)
  | .idle => outcome s
  | .halted => outcome s

theorem refFrom_run (payload : List Byte) (fuel : Nat) {s : State} (hp : s.phase = .run) : refFrom payload fuel s =
    refLoop payload s.outCap.toNat fuel (produced s) s.inIdx.toNat s.bitPos.toNat s.ind.toNat := by
  rw [refFrom, hp]

theorem refFrom_copy (payload : List Byte) (fuel : Nat) {s : State} (hp : s.phase = .copy) : refFrom payload fuel s =
    refResume payload s.outCap.toNat fuel s.bitPos.toNat s.ind.toNat
      (refCopied (refCopy s.outCap.toNat s.mOff.toNat s.cnt.toNat (produced s)) s.inIdx.toNat s.bitPos.toNat) := by
  rw [refFrom, hp]

theorem refFrom_halted (payload : List Byte) (fuel : Nat) {s : State} (hp : s.phase = .halted) :
    refFrom payload fuel s = outcome s := by
  rw [refFrom, hp]

theorem refFrom_raiseHalt (payload : List Byte) (fuel : Nat) (c : Cause) (s : State) :
    refFrom payload fuel (raiseHalt c s) = ⟨produced s, c, s.inIdx.toNat, s.bitPos.toNat⟩ := rfl

/-- An emitted byte is one byte more of the result (R29, R35). -/
theorem produced_emit (v : Byte) {s : State} (room : s.outIdx < s.outCap) : produced (emit v s) = produced s ++ [v] := by
  rw [produced, emit_outIdx, (word_succ_of_lt room).1, List.range_succ, List.map_append]
  refine congrArg₂ (· ++ ·) (List.map_congr_left fun a ha => ?_) ?_
  · have hlt : a < s.outIdx.toNat := List.mem_range.1 ha
    exact outByte_emit_other v s (by omega)
  · simp [outByte_emit]

/-- A byte of the result is the byte of `OUT` there. -/
theorem produced_getD {s : State} {a : Nat} (h : a < s.outIdx.toNat) : (produced s).getD a 0 = outByte s a := by
  rw [List.getD_eq_getElem _ _ (by rw [produced_length]; exact h)]
  simp [produced]

theorem produced_tokenState (s : State) : produced (tokenState s) = produced s :=
  produced_congr (by simp) (by simp) (by simp)

/-! A copy step. -/

/-- One pass of the reference's copy loop (R70, R105). -/
theorem refCopy_succ {cap off n : Nat} {out : List Byte} (source : off < out.length) (room : out.length < cap) :
    refCopy cap off (n + 1) out = refCopy cap off n (out ++ [out.getD (out.length - off - 1) 0]) := by
  rw [refCopy, if_neg (by omega), if_neg (by omega)]

theorem copyMove_refFrom {payload : List Byte} {fuel : Nat} {s t : State} (hp : s.phase = .copy) (move : CopyMove s t) :
    refFrom payload fuel s = refFrom payload fuel t := by
  have hlen := produced_length s
  rw [refFrom_copy payload fuel hp]
  cases move with
  | finished zero =>
    rw [refFrom_run payload fuel rfl, zero]
    rfl
  | underflow count before =>
    obtain ⟨n, hn⟩ := Nat.exists_eq_succ_of_ne_zero (count_pred count).2
    rw [hn, refCopy, if_pos (by omega), refFrom_raiseHalt]
    rfl
  | cut count source full =>
    obtain ⟨n, hn⟩ := Nat.exists_eq_succ_of_ne_zero (count_pred count).2
    have hfull : s.outCap.toNat ≤ s.outIdx.toNat := full
    rw [hn, refCopy, if_neg (by omega), if_pos (by omega), refFrom_raiseHalt]
    rfl
  | copied count source room =>
    obtain ⟨hpred, hpos⟩ := count_pred count
    have hroom : s.outIdx.toNat < s.outCap.toNat := room
    have hsource : s.outIdx.toNat - s.mOff.toNat - 1 = s.outIdx.toNat - (s.mOff.toNat + 1) := by omega
    have hcnt : s.cnt.toNat = (s.cnt - 1).toNat + 1 := by omega
    have hproduced := produced_emit (outByte s (s.outIdx.toNat - (s.mOff.toNat + 1))) room
    rw [hcnt, refCopy_succ (by omega) (by omega), hlen, hsource, produced_getD (by omega), ← hproduced]
    by_cases hlast : s.cnt - 1 = 0
    · rw [refFrom_run payload fuel (if_pos hlast), hlast]
      rfl
    · rw [refFrom_copy payload fuel ((if_neg hlast).trans hp)]
      rfl

/-! A token step. -/

/-- Where the guard has passed, the loop goes on to the token in `tokenState` (R73, R74). -/
theorem refFrom_token {payload : List Byte} (fuel : Nat) {s : State} (hp : s.phase = .run) (hb : s.bitPos.toNat ≤ 30)
    (serves : Serves payload s) (passed : GuardPassed s) : refFrom payload (fuel + 1) s =
      refResume payload s.outCap.toNat fuel (tokenState s).bitPos.toNat (tokenState s).ind.toNat
        (refToken payload s.outCap.toNat (produced s) (tokenState s).inIdx.toNat (tokenState s).bitPos.toNat
          (tokenState s).ind.toNat) := by
  have hroom : (produced s).length < s.outCap.toNat := by rw [produced_length]; exact passed.room
  have hmore : s.inIdx.toNat < payload.length := by rw [← serves.len_is]; exact passed.more
  have hrem := serves_remaining serves
  have hdue : s.bitPos + 1 = 31 ↔ s.bitPos.toNat = 30 := by rw [bitPos_reaches_iff, ← BitVec.toNat_inj]; rfl
  have hfour (h30 : s.bitPos.toNat = 30) : 4 ≤ remaining s := passed.refill (hdue.2 h30)
  have hidx : (tokenState s).inIdx.toNat = refNextIdx s.inIdx.toNat s.bitPos.toNat := by
    rw [tokenState_inIdx passed.refill, refNextIdx]
    simp only [hdue]
    split <;> rfl
  have hbit : (tokenState s).bitPos.toNat = refNextBit s.bitPos.toNat := by
    rw [tokenState_bitPos hb, refNextBit]
    split <;> omega
  have hind : (tokenState s).ind.toNat = refNextInd payload s.inIdx.toNat s.bitPos.toNat s.ind.toNat := by
    obtain ⟨hkept, hloaded⟩ := tokenState_ind s
    rw [refNextInd]
    split
    · have h4 := hfour ‹_›
      rw [hloaded ((bitPos_reaches_iff s).1 (hdue.2 ‹_›)), serves_nextByte serves (by omega),
        serves_nextByte serves (by omega), serves_nextByte serves (by omega), serves_nextByte serves (by omega)]
      rfl
    · rw [hkept (mt (bitPos_reaches_iff s).2 (mt hdue.1 ‹_›))]
  rw [refFrom_run payload _ hp, refLoop_passed hroom hmore (fun h30 => by rw [← hrem]; exact hfour h30), hidx, hbit, hind]

theorem tokenMove_refFrom {payload : List Byte} {fuel : Nat} {s t : State} (hp : s.phase = .run)
    (hb : s.bitPos.toNat ≤ 30) (serves : Serves payload s) (move : TokenMove s t) :
    refFrom payload (fuel + 1) s = refFrom payload fuel t := by
  have hlen := produced_length s
  have serves' : Serves payload (tokenState s) := serves_sameSurroundings serves (by simp [sameSurroundings])
  have hrem := serves_remaining serves'
  have hclear (h : controlBit (tokenState s) = false) := (controlBit_false_iff _).1 h
  have hset (h : controlBit (tokenState s) = true) :
      ((tokenState s).ind.toNat >>> (tokenState s).bitPos.toNat) &&& 1 ≠ 0 := by
    rw [show _ = 1 from (controlBit_iff _).1 h]; decide
  cases move with
  | outFull full =>
    have hfull : s.outCap.toNat ≤ s.outIdx.toNat := full
    rw [refFrom_run payload _ hp, refLoop_full (by omega), refFrom_raiseHalt]
  | inEmpty room used =>
    have hroom : s.outIdx.toNat < s.outCap.toNat := room
    have hused : s.inLen.toNat ≤ s.inIdx.toNat := used
    rw [refFrom_run payload _ hp, refLoop_empty (by omega) (by rw [← serves.len_is]; exact hused), refFrom_raiseHalt]
  | refillShort room more due few =>
    have hroom : s.outIdx.toNat < s.outCap.toNat := room
    have hmore : s.inIdx.toNat < s.inLen.toNat := more
    have h30 := (bitPos_reaches_iff s).1 due
    rw [serves_remaining serves] at few
    rw [refFrom_run payload _ hp, refLoop_short (by omega) (by rw [← serves.len_is]; exact hmore) (by rw [h30]; rfl) few,
      refFrom_raiseHalt, advanceBit_bitPos, due]
    rfl
  | litShort passed clear used =>
    rw [refFrom_token fuel hp hb serves passed, refToken_litShort (hclear clear) (by omega), refFrom_raiseHalt,
      produced_tokenState]
    rfl
  | literal passed clear one =>
    have hin := (tokenState_consume_inIdx (u := emit (inByte (tokenState s) (tokenState s).inIdx.toNat) (tokenState s))
      rfl passed one).1
    have hout : produced (consume 1 (emit (inByte (tokenState s) (tokenState s).inIdx.toNat) (tokenState s))) =
        produced s ++ [inByte (tokenState s) (tokenState s).inIdx.toNat] := by
      rw [← produced_tokenState s]
      exact produced_emit _ (by simpa using passed.room)
    have hrun : (consume 1 (emit (inByte (tokenState s) (tokenState s).inIdx.toNat) (tokenState s))).phase = .run :=
      (tokenState_phase s).trans hp
    rw [refFrom_token fuel hp hb serves passed, refToken_literal (hclear clear) (by omega), refFrom_run payload fuel hrun,
      hin, hout, serves_inByte serves' (by omega), consume_outCap, emit_outCap, tokenState_outCap]
    rfl
  | tokenShort passed set few =>
    rw [refFrom_token fuel hp hb serves passed, refToken_tokenShort (hset set) ?_, refFrom_raiseHalt, produced_tokenState]
    · rfl
    · rw [← hrem]
      by_cases h2 : remaining (tokenState s) < 2
      · exact .inl h2
      · rw [← Nat.add_zero (tokenState s).inIdx.toNat, ← serves_nextByte serves' (by omega)]
        exact few
  | matchToken passed set two fits len off fields =>
    have hin := (tokenState_consume_inIdx (u := latchMatch len off (tokenState s)) rfl passed fits).1
    have hlead : nextByte (tokenState s) 0 = refByte payload (tokenState s).inIdx.toNat :=
      serves_nextByte serves' (by omega)
    have hfields : (len.toNat, off.toNat) = refFieldsAt payload (tokenState s).inIdx.toNat := by
      rw [fields, refFieldsAt, ← hlead]
      exact refFields_congr (fun h => serves_nextByte serves' (by omega)) (fun h => serves_nextByte serves' (by omega))
        (fun h => serves_nextByte serves' (by omega))
    have hlenField : (refFieldsAt payload (tokenState s).inIdx.toNat).1 = len.toNat := by rw [← hfields]
    have hoffField : (refFieldsAt payload (tokenState s).inIdx.toNat).2 = off.toNat := by rw [← hfields]
    rw [refFrom_token fuel hp hb serves passed,
      refToken_match (hset set) (by omega) (by rw [← hlead, ← hrem]; exact fits), refFrom_copy payload fuel rfl, hin,
      ← hlead, hlenField, hoffField, ← produced_tokenState s, consume_outCap, latchMatch_outCap, tokenState_outCap]
    rfl

/-! The whole decode. -/

/-- A decode of `payload` under way or over, whose reference result is `r`. -/
structure Foretells (payload : List Byte) (r : RefResult) (s : State) : Prop where
  serves : Serves payload s
  phase : UnderWay s ∨ s.phase = .halted
  result : ∃ fuel, payload.length - s.inIdx.toNat < fuel ∧ refFrom payload fuel s = r

/-- Each step of the engine keeps the result foretold; a token step uses up fuel and at least as much input (R157). -/
theorem foretells_step {payload : List Byte} {r : RefResult} {s t : State} (h : Foretells payload r s)
    (hs : step s = .next t) : Foretells payload r t := by
  obtain ⟨serves, phase, fuel, hfuel, hresult⟩ := h
  have hsame := engineLeavesItsInputAlone s t serves.alone hs
  cases engineMove_of_step serves.alone hs with
  | rest => exact ⟨serves, phase, fuel, hfuel, hresult⟩
  | token hp move =>
    have hway : UnderWay s := phase.resolve_right (by simp [hp])
    have hbounds := underWay_decodeBounds hway
    obtain ⟨f, rfl⟩ := Nat.exists_eq_succ_of_ne_zero (Nat.ne_zero_of_lt hfuel)
    have hforetold : refFrom payload f t = r :=
      (tokenMove_refFrom hp hbounds.bit_bound serves move).symm.trans hresult
    refine ⟨serves_sameSurroundings serves hsame, (tokenMove_underWay hp hbounds move).imp_right And.left, ?_⟩
    by_cases ht : t.phase = .halted
    · refine ⟨payload.length + 1, by omega, ?_⟩
      rw [refFrom_halted _ _ ht, ← refFrom_halted payload f ht, hforetold]
    · have hforward := ((everyStepMakesProgress s t serves.alone hs ht).1 hp).1
      have hmore : s.inIdx.toNat < s.inLen.toNat := (guardPassed_of_not_halted move ht).more
      rw [serves.len_is] at hmore
      exact ⟨f, by omega, hforetold⟩
  | copy hp move =>
    have hway : UnderWay s := phase.resolve_right (by simp [hp])
    have hin : t.inIdx = s.inIdx := by cases move <;> rfl
    refine ⟨serves_sameSurroundings serves hsame, (engineMove_underWay hway (.copy hp move)).imp_right And.left,
      fuel, by rw [hin]; exact hfuel, ?_⟩
    rw [← copyMove_refFrom hp move]
    exact hresult

/-- A run that goes on begins with a step that goes on. -/
theorem step_of_runSteps_succ {n : Nat} {s t : State} (h : runSteps (n + 1) s = .next t) :
    ∃ u, step s = .next u ∧ runSteps n u = .next t := by
  match hfirst : step s with
  | .next u => exact ⟨u, rfl, (runSteps_succ hfirst).symm.trans h⟩
  | .fault r =>
    have hcore : Sys2Proof.core.step s = .fault r := hfirst
    simp only [runSteps, Host.Core.run, hcore] at h
    cases h
  | .refused r =>
    have hcore : Sys2Proof.core.step s = .refused r := hfirst
    simp only [runSteps, Host.Core.run, hcore] at h
    cases h

/-- What every step keeps, every run keeps. -/
theorem runSteps_keeps {P : State → Prop} (hstep : ∀ s t, P s → step s = .next t → P t) (n : Nat) {s t : State}
    (hs : P s) (hrun : runSteps n s = .next t) : P t := by
  induction n generalizing s with
  | zero =>
    obtain rfl : s = t := Host.Outcome.next.inj hrun
    exact hs
  | succ n ih =>
    obtain ⟨u, hfirst, hrest⟩ := step_of_runSteps_succ hrun
    exact ih (hstep s u hs hfirst) hrest

/-- From position 30 the word `ind` held is replaced before a bit of it is tested, so it does not matter (R147). -/
theorem refLoop_ind_irrelevant (payload : List Byte) (cap fuel : Nat) (out : List Byte) (inIdx ind ind' : Nat) :
    refLoop payload cap fuel out inIdx 30 ind = refLoop payload cap fuel out inIdx 30 ind' := by
  cases fuel <;> rfl

/-- At launch the reference is resumed at its start (R27, R70). -/
theorem launched_foretells {payload : List Byte} {cap : Word} {s : State} (h : Launched payload cap s) :
    Foretells payload (refDecode payload cap.toNat) s := by
  refine ⟨⟨h.len_is, h.loaded, h.alone⟩, .inl (launched_underWay h), payload.length + 1, by omega, ?_⟩
  have hnothing : produced s = [] := by rw [produced, h.out_zero]; rfl
  rw [refFrom_run _ _ h.phase_run, h.cap_is, hnothing, h.in_zero, h.bit_init]
  exact refLoop_ind_irrelevant _ _ _ _ _ _ _

/-- A launched decode ends in the reference's result. -/
theorem launched_decodesTo {payload : List Byte} {cap : Word} {s : State} (h : Launched payload cap s) :
    ∃ t, decodesTo payload cap s t ∧ outcome t = refDecode payload cap.toNat := by
  obtain ⟨t, hrun, hp, -⟩ := everyDecodeTerminates payload cap s h
  obtain ⟨-, -, fuel, -, hresult⟩ := runSteps_keeps (fun _ _ => foretells_step) _ (launched_foretells h) hrun
  exact ⟨t, ⟨hrun, hp⟩, (refFrom_halted payload fuel hp).symm.trans hresult⟩

/-- Settles O49: the reference resumed where the engine stands gives the same result after every step, and in HALTED it is
what the state shows. -/
theorem engineComputesTheReferenceDecode : Obligations.EngineComputesTheReferenceDecode := by
  unfold Obligations.EngineComputesTheReferenceDecode
  intro payload cap s h
  obtain ⟨t, hdecodes, houtcome⟩ := launched_decodesTo h
  rw [← houtcome]
  exact ⟨t, hdecodes, rfl, rfl, rfl, rfl⟩

end Sys2Proof.Machine
end

section
/-! PROOFS of the whole decode's results: each is a fact of the reference algorithm, carried over to the engine by the
refinement (R28, R159 to R161, R163). -/

namespace Sys2Proof.Machine

open Sys2Proof.Safety

/-- A launched decode produces the reference's output. -/
theorem launched_produced {payload : List Byte} {cap : Word} {s : State} (h : Launched payload cap s) :
    ∃ t, decodesTo payload cap s t ∧ produced t = (refDecode payload cap.toNat).out := by
  obtain ⟨t, hdecodes, houtcome⟩ := launched_decodesTo h
  exact ⟨t, hdecodes, congrArg RefResult.out houtcome⟩

/-- Settles O53: both results are the reference's. -/
theorem decodeIsAFunctionOfItsInput : Obligations.DecodeIsAFunctionOfItsInput := by
  unfold Obligations.DecodeIsAFunctionOfItsInput
  intro payload cap s s' h h'
  obtain ⟨t, hdecodes, hout⟩ := launched_produced h
  obtain ⟨t', hdecodes', hout'⟩ := launched_produced h'
  exact ⟨t, t', hdecodes, hdecodes', hout.trans hout'.symm⟩

/-! Empty results. -/

/-- A match token copies at least one byte, or halts for want of one (R60). -/
theorem refFields_length_pos (b0 b1 b2 b3 : Nat) : 0 < (refFields b0 b1 b2 b3).1 := by
  simp only [refFields]
  split_ifs <;> exact Nat.succ_pos _

/-- A copy into an empty output underflows at its first byte (R107). -/
theorem refCopy_nil (cap off : Nat) {n : Nat} (h : 0 < n) : refCopy cap off n [] = ([], .srcUnderflow) := by
  obtain ⟨n, rfl⟩ := Nat.exists_eq_succ_of_ne_zero (Nat.ne_of_gt h)
  rw [refCopy, if_pos (by simp)]

/-- Bit 0 of the first indicator word is bit 0 of the payload's first byte (R31). -/
theorem refWord_odd {payload : List Byte} {inIdx : Nat} (h : refByte payload inIdx % 2 = 1) :
    refWord payload inIdx &&& 1 ≠ 0 := by
  have hodd : refWord payload inIdx % 2 = 1 := by
    simp only [refWord, Nat.or_mod_two_eq_one]
    exact .inl (.inl (.inl h))
  rw [Nat.and_one_is_mod, hodd]
  decide

/-- With an empty output a match token ends the decode with nothing (R159). -/
theorem refToken_match_of_nil {payload : List Byte} {inIdx bitPos ind : Nat} (cap : Nat)
    (set : (ind >>> bitPos) &&& 1 ≠ 0) : ∃ r, refToken payload cap [] inIdx bitPos ind = .stop r ∧ r.out = [] := by
  by_cases few : payload.length - inIdx < 2 ∨ payload.length - inIdx < refSize (refByte payload inIdx)
  · exact ⟨_, refToken_tokenShort set few, rfl⟩
  · simp only [not_or, not_lt] at few
    obtain ⟨two, fits⟩ := few
    have hpos : 0 < (refFieldsAt payload inIdx).1 := refFields_length_pos _ _ _ _
    rw [refToken_match set two fits, refCopy_nil _ _ hpos]
    exact ⟨_, rfl, rfl⟩

/-- The first token of a decode whose payload is used up by its refill, or whose first control bit is 1 (R159). -/
theorem refToken_first_empty {payload : List Byte} (cap : Nat)
    (h : payload.length = 4 ∨ refWord payload 0 &&& 1 ≠ 0) :
    ∃ r, refToken payload cap [] 4 0 (refWord payload 0) = .stop r ∧ r.out = [] := by
  by_cases clear : (refWord payload 0 >>> 0) &&& 1 = 0
  · have used : payload.length = 4 := h.resolve_right (not_not.2 clear)
    exact ⟨_, refToken_litShort clear (by omega), rfl⟩
  · exact refToken_match_of_nil cap clear

/-- R159 of the reference: its first pass is its last. -/
theorem refDecode_out_empty {payload : List Byte} {cap : Nat}
    (h : cap = 0 ∨ payload.length ≤ 4 ∨ refByte payload 0 % 2 = 1) : (refDecode payload cap).out = [] := by
  rw [refDecode]
  by_cases full : cap ≤ 0
  · rw [refLoop_full full]
  by_cases used : payload.length ≤ 0
  · rw [refLoop_empty (not_le.1 full) used]
  by_cases few : payload.length - 0 < 4
  · rw [refLoop_short (not_le.1 full) (not_le.1 used) rfl few]
  · obtain ⟨r, htoken, hout⟩ := refToken_first_empty (payload := payload) cap (by
      rcases h with h | h | h
      · omega
      · exact .inl (by omega)
      · exact .inr (refWord_odd h))
    rw [refLoop_passed (not_le.1 full) (not_le.1 used) fun _ => not_lt.1 few]
    exact (congrArg (fun token => (refResume payload cap payload.length 0 (refWord payload 0) token).out) htoken).trans hout

/-- Settles O50: the reference's result is empty in each of the three cases. -/
theorem emptyResults : Obligations.EmptyResults := by
  unfold Obligations.EmptyResults
  intro payload cap s h hcases
  obtain ⟨t, hdecodes, hout⟩ := launched_produced h
  refine ⟨t, hdecodes, hout.trans (refDecode_out_empty ?_)⟩
  rcases hcases with hcap | hlen | ⟨b0, hb0, hodd⟩
  · exact .inl (by rw [hcap]; rfl)
  · exact .inr (.inl hlen)
  · exact .inr (.inr (by rw [refByte, List.getD_eq_getElem?_getD, hb0]; exact hodd))

/-! The output only grows. -/

/-- The output when a token is done or has ended the decode. -/
def refTokenOut (token : RefToken) : List Byte :=
  match token with
  | .stop r => r.out
  | .more out _ => out

theorem refTokenOut_refCopied (copied : List Byte × Cause) (inIdx bitPos : Nat) :
    refTokenOut (refCopied copied inIdx bitPos) = copied.1 := by
  rw [refCopied]
  split <;> rfl

theorem refCopy_extends (cap off n : Nat) (out : List Byte) : out <+: (refCopy cap off n out).1 := by
  induction n generalizing out with
  | zero => exact List.prefix_rfl
  | succ n ih =>
    rw [refCopy]
    split_ifs
    · exact List.prefix_rfl
    · exact List.prefix_rfl
    · exact (List.prefix_append _ _).trans (ih _)

theorem refToken_extends (payload : List Byte) (cap : Nat) (out : List Byte) (inIdx bitPos ind : Nat) :
    out <+: refTokenOut (refToken payload cap out inIdx bitPos ind) := by
  by_cases clear : (ind >>> bitPos) &&& 1 = 0
  · by_cases used : payload.length - inIdx = 0
    · rw [refToken_litShort clear used]
      exact List.prefix_rfl
    · rw [refToken_literal clear (by omega)]
      exact List.prefix_append _ _
  · by_cases few : payload.length - inIdx < 2 ∨ payload.length - inIdx < refSize (refByte payload inIdx)
    · rw [refToken_tokenShort clear few]
      exact List.prefix_rfl
    · rw [refToken_match clear (by omega) (by omega), refTokenOut_refCopied]
      exact refCopy_extends _ _ _ _

/-- Where the loop comes to its token part is decided before it (R71, R74): a halt with the output as it is, or the
token. -/
theorem refLoop_cases (payload : List Byte) (cap fuel : Nat) (out : List Byte) (inIdx bitPos ind : Nat) :
    (refLoop payload cap (fuel + 1) out inIdx bitPos ind).out = out ∨
    (out.length < cap ∧ inIdx < payload.length ∧ (bitPos = 30 → 4 ≤ payload.length - inIdx)) := by
  by_cases full : cap ≤ out.length
  · exact .inl (by rw [refLoop_full full])
  by_cases used : payload.length ≤ inIdx
  · exact .inl (by rw [refLoop_empty (not_le.1 full) used])
  by_cases few : bitPos = 30 ∧ payload.length - inIdx < 4
  · exact .inl (by rw [refLoop_short (not_le.1 full) (not_le.1 used) few.1 few.2])
  · exact .inr ⟨not_le.1 full, not_le.1 used, by omega⟩

theorem refLoop_extends (payload : List Byte) (cap fuel : Nat) (out : List Byte) (inIdx bitPos ind : Nat) :
    out <+: (refLoop payload cap fuel out inIdx bitPos ind).out := by
  induction fuel generalizing out inIdx bitPos ind with
  | zero => exact List.prefix_rfl
  | succ fuel ih =>
    rcases refLoop_cases payload cap fuel out inIdx bitPos ind with hhalt | ⟨room, more, refill⟩
    · rw [hhalt]
    · rw [refLoop_passed room more refill]
      refine (refToken_extends payload cap out (refNextIdx inIdx bitPos) (refNextBit bitPos)
        (refNextInd payload inIdx bitPos ind)).trans ?_
      cases refToken payload cap out (refNextIdx inIdx bitPos) (refNextBit bitPos)
        (refNextInd payload inIdx bitPos ind) with
      | stop r => exact List.prefix_rfl
      | more out' inIdx' => exact ih _ _ _ _

theorem refResume_extends (payload : List Byte) (cap fuel bitPos ind : Nat) (token : RefToken) :
    refTokenOut token <+: (refResume payload cap fuel bitPos ind token).out := by
  cases token with
  | stop r => exact List.prefix_rfl
  | more out inIdx => exact refLoop_extends _ _ _ _ _ _ _

/-! Truncated payloads. -/

section

variable {whole cut : List Byte} (hcut : cut <+: whole)
include hcut

theorem refByte_of_cut {k : Nat} (hk : k < cut.length) : refByte cut k = refByte whole k := by
  obtain ⟨rest, rfl⟩ := hcut
  rw [refByte, refByte, List.getD_append _ _ _ _ hk]

/-- A token part in the cut payload ends the decode there and then, or comes to what it comes to in the whole. -/
theorem refToken_of_cut (cap : Nat) (out : List Byte) (inIdx bitPos ind : Nat) :
    (∃ r, refToken cut cap out inIdx bitPos ind = .stop r ∧ r.out = out) ∨
    refToken cut cap out inIdx bitPos ind = refToken whole cap out inIdx bitPos ind := by
  have hlen := hcut.length_le
  have hbyte {k : Nat} (hk : k < cut.length) := refByte_of_cut hcut hk
  by_cases clear : (ind >>> bitPos) &&& 1 = 0
  · by_cases used : cut.length - inIdx = 0
    · exact .inl ⟨_, refToken_litShort clear used, rfl⟩
    · have hget : cut.getD inIdx 0 = whole.getD inIdx 0 := BitVec.eq_of_toNat_eq (hbyte (by omega))
      exact .inr (by rw [refToken_literal clear (by omega), refToken_literal clear (by omega), hget])
  · by_cases few : cut.length - inIdx < 2 ∨ cut.length - inIdx < refSize (refByte cut inIdx)
    · exact .inl ⟨_, refToken_tokenShort clear few, rfl⟩
    · simp only [not_or, not_lt] at few
      obtain ⟨two, fits⟩ := few
      have hlead := hbyte (k := inIdx) (by omega)
      have hfields : refFieldsAt cut inIdx = refFieldsAt whole inIdx := by
        rw [refFieldsAt, refFieldsAt, ← hlead]
        exact refFields_congr (fun h => hbyte (by omega)) (fun h => hbyte (by omega)) (fun h => hbyte (by omega))
      refine .inr ?_
      rw [refToken_match clear two fits, refToken_match clear (by omega) (by rw [← hlead]; omega), hfields, hlead]

/-- R160 of the reference, at any point both decodes reach with the same output. -/
theorem refLoop_of_cut (cap : Nat) {fuel fuel' : Nat} (hfuel : fuel' ≤ fuel) (out : List Byte)
    (inIdx bitPos ind : Nat) :
    (refLoop cut cap fuel' out inIdx bitPos ind).out <+: (refLoop whole cap fuel out inIdx bitPos ind).out := by
  induction fuel' generalizing fuel out inIdx bitPos ind with
  | zero => exact refLoop_extends _ _ _ _ _ _ _
  | succ fuel' ih =>
    obtain ⟨fuel, rfl⟩ := Nat.exists_eq_add_one_of_ne_zero (show fuel ≠ 0 by omega)
    rcases refLoop_cases cut cap fuel' out inIdx bitPos ind with hhalt | ⟨room, more, refill⟩
    · rw [hhalt]
      exact refLoop_extends _ _ _ _ _ _ _
    · have hlen := hcut.length_le
      have hind : refNextInd cut inIdx bitPos ind = refNextInd whole inIdx bitPos ind := by
        rw [refNextInd, refNextInd]
        split
        · have h4 := refill ‹_›
          simp only [refWord]
          rw [refByte_of_cut hcut (by omega), refByte_of_cut hcut (by omega), refByte_of_cut hcut (by omega),
            refByte_of_cut hcut (by omega)]
        · rfl
      rw [refLoop_passed room more refill,
        refLoop_passed room (by omega) fun due => (refill due).trans (Nat.sub_le_sub_right hlen _), hind]
      rcases refToken_of_cut hcut cap out (refNextIdx inIdx bitPos) (refNextBit bitPos)
        (refNextInd whole inIdx bitPos ind) with ⟨r, hstop, hout⟩ | hsame
      · rw [hstop]
        refine (show r.out <+: _ from ?_)
        rw [hout]
        exact (refToken_extends _ _ _ _ _ _).trans (refResume_extends _ _ _ _ _ _)
      · rw [hsame]
        cases refToken whole cap out (refNextIdx inIdx bitPos) (refNextBit bitPos)
          (refNextInd whole inIdx bitPos ind) with
        | stop r => exact List.prefix_rfl
        | more out' inIdx' => exact ih (by omega) _ _ _ _

end

/-- Settles O51: the first bytes of a payload are a cut of it, and both results are the reference's. -/
theorem truncationGivesAPrefix : Obligations.TruncationGivesAPrefix := by
  unfold Obligations.TruncationGivesAPrefix
  intro payload k cap s s' h h'
  obtain ⟨t, hdecodes, hout⟩ := launched_produced h
  obtain ⟨t', hdecodes', hout'⟩ := launched_produced h'
  refine ⟨t, t', hdecodes, hdecodes', ?_⟩
  rw [hout, hout']
  have hcut : payload.take k <+: payload := List.take_prefix k payload
  exact refLoop_of_cut hcut _ (Nat.succ_le_succ hcut.length_le) _ _ _ _

/-! Smaller capacities. -/

theorem take_of_extends {out longer : List Byte} {cap : Nat} (h : out <+: longer) (hlen : out.length = cap) :
    longer.take cap = out := by
  rw [← hlen]
  exact (List.prefix_iff_eq_take.1 h).symm

section

variable {cap cap' : Nat} (hcap : cap' ≤ cap)
include hcap

/-- With the smaller capacity a copy goes the same way, or stops at the capacity with the first bytes of the other. -/
theorem refCopy_of_smaller (off n : Nat) {out : List Byte} (hout : out.length ≤ cap') :
    (refCopy cap' off n out = refCopy cap off n out ∧ (refCopy cap off n out).1.length ≤ cap') ∨
    ((refCopy cap' off n out).2 ≠ .none ∧ (refCopy cap' off n out).1.length = cap' ∧
      (refCopy cap' off n out).1 <+: (refCopy cap off n out).1) := by
  induction n generalizing out with
  | zero => exact .inl ⟨rfl, hout⟩
  | succ n ih =>
    by_cases before : out.length < off + 1
    · rw [refCopy, refCopy, if_pos before, if_pos before]
      exact .inl ⟨rfl, hout⟩
    by_cases full : cap' ≤ out.length
    · have hstop : refCopy cap' off (n + 1) out = (out, .outFullCopy) := by
        rw [refCopy, if_neg before, if_pos full]
      rw [hstop]
      exact .inr ⟨by simp, le_antisymm hout full, refCopy_extends _ _ _ _⟩
    · rw [refCopy_succ (by omega) (by omega), refCopy_succ (by omega) (by omega)]
      exact ih (by rw [List.length_append, List.length_singleton]; omega)

/-- The same of a token part. -/
theorem refToken_of_smaller (payload : List Byte) {out : List Byte} (inIdx bitPos ind : Nat) (room : out.length < cap') :
    (refToken payload cap' out inIdx bitPos ind = refToken payload cap out inIdx bitPos ind ∧
      (refTokenOut (refToken payload cap out inIdx bitPos ind)).length ≤ cap') ∨
    (∃ r, refToken payload cap' out inIdx bitPos ind = .stop r ∧ r.out.length = cap' ∧
      r.out <+: refTokenOut (refToken payload cap out inIdx bitPos ind)) := by
  by_cases clear : (ind >>> bitPos) &&& 1 = 0
  · by_cases used : payload.length - inIdx = 0
    · rw [refToken_litShort clear used, refToken_litShort clear used]
      exact .inl ⟨rfl, room.le⟩
    · rw [refToken_literal clear (by omega), refToken_literal clear (by omega)]
      exact .inl ⟨rfl, by rw [refTokenOut, List.length_append, List.length_singleton]; omega⟩
  · by_cases few : payload.length - inIdx < 2 ∨ payload.length - inIdx < refSize (refByte payload inIdx)
    · rw [refToken_tokenShort clear few, refToken_tokenShort clear few]
      exact .inl ⟨rfl, room.le⟩
    · rw [refToken_match clear (by omega) (by omega), refToken_match clear (by omega) (by omega), refTokenOut_refCopied]
      rcases refCopy_of_smaller hcap (refFieldsAt payload inIdx).2 (refFieldsAt payload inIdx).1 room.le with
        ⟨hsame, hlen⟩ | ⟨hstop, hlen, hextends⟩
      · exact .inl ⟨by rw [hsame], hlen⟩
      · exact .inr ⟨_, if_neg hstop, hlen, hextends⟩

/-- R161 of the reference, at any point both decodes reach with the same output. -/
theorem refLoop_of_smaller (payload : List Byte) (fuel : Nat) {out : List Byte} (inIdx bitPos ind : Nat)
    (hout : out.length ≤ cap') :
    (refLoop payload cap' fuel out inIdx bitPos ind).out =
      (refLoop payload cap fuel out inIdx bitPos ind).out.take cap' := by
  induction fuel generalizing out inIdx bitPos ind with
  | zero => exact (List.take_of_length_le hout).symm
  | succ fuel ih =>
    by_cases full : cap' ≤ out.length
    · rw [refLoop_full full]
      exact (take_of_extends (refLoop_extends _ _ _ _ _ _ _) (le_antisymm hout full)).symm
    by_cases used : payload.length ≤ inIdx
    · rw [refLoop_empty (by omega) used, refLoop_empty (by omega) used]
      exact (List.take_of_length_le hout).symm
    by_cases few : bitPos = 30 ∧ payload.length - inIdx < 4
    · rw [refLoop_short (by omega) (by omega) few.1 few.2, refLoop_short (by omega) (by omega) few.1 few.2]
      exact (List.take_of_length_le hout).symm
    · rw [refLoop_passed (by omega) (by omega) (by omega), refLoop_passed (by omega) (by omega) (by omega)]
      rcases refToken_of_smaller hcap payload (refNextIdx inIdx bitPos) (refNextBit bitPos)
        (refNextInd payload inIdx bitPos ind) (not_le.1 full) with ⟨hsame, hlen⟩ | ⟨r, hstop, hlen, hextends⟩
      · rw [hsame]
        cases htoken : refToken payload cap out (refNextIdx inIdx bitPos) (refNextBit bitPos)
          (refNextInd payload inIdx bitPos ind) with
        | stop r =>
          rw [htoken] at hlen
          exact (List.take_of_length_le hlen).symm
        | more out' inIdx' =>
          rw [htoken] at hlen
          exact ih _ _ _ hlen
      · rw [hstop]
        exact (take_of_extends (hextends.trans (refResume_extends _ _ _ _ _ _)) hlen).symm

end

/-- Settles O52: both results are the reference's. -/
theorem capacityCutsTheResult : Obligations.CapacityCutsTheResult := by
  unfold Obligations.CapacityCutsTheResult
  intro payload cap cap' s s' hcap h h'
  obtain ⟨t, hdecodes, hout⟩ := launched_produced h
  obtain ⟨t', hdecodes', hout'⟩ := launched_produced h'
  refine ⟨t, t', hdecodes, hdecodes', ?_⟩
  rw [hout, hout']
  exact refLoop_of_smaller hcap payload _ _ _ _ (Nat.zero_le _)

end Sys2Proof.Machine
end
